-- ==== Sys2Proof/Word.lean ====
section
/-! DEFINITION. The value types of the core: bit, byte, bit and byte sequences, sample, sample frame, chunk
(00_scope.md R11, R13, R15, R18; 20_memory.md R66; 46_common_laws.md R222). -/

namespace Sys2Proof

/-- A byte: an unsigned 8-bit value, bit 0 the least significant (R13). A command word is one byte (R80). -/
abbrev Byte := BitVec 8

/-- A Bit is "one of {ZERO, ONE}" (R18). -/
abbrev Bit := Bool

/-- ZERO, written `0` in bit sequences (R18). -/
abbrev ZERO : Bit := false

/-- ONE, written `1` in bit sequences (R18). -/
abbrev ONE : Bit := true

/-- A bit sequence: index 0 is the first (earliest) bit (R11). -/
abbrev Bits := List Bit

/-- A byte sequence: index 0 is the first payload byte (R50). -/
abbrev Bytes := List Byte

/-- One value of SampleDom (R10, R222): a real number, given as a combination with rational coefficients of 1, of
sines `sin(2π * turns)` of rational `turns`, and of real numbers that come from outside, each under a number of its own.
`SampleDom` is a parameter (`SampleDom` in Config.lean; log 1): in a finite format a sample is its first component, in
the ideal domain ℝ the others give what no rational is. -/
structure Sample where
  num    : Rat
  /-- Pairs `(turns, coefficient)`. -/
  sines  : List (Rat × Rat)
  /-- Pairs `(number of the outside value, coefficient)`. -/
  inputs : List (Nat × Rat)
deriving DecidableEq, Repr

/-- A sample frame: the values of the `C` channels at one sample time (R66). -/
abbrev SampleFrame := List Sample

/-- A chunk: `L` sample frames in time order (R66, R108). -/
abbrev Chunk := List SampleFrame

end Sys2Proof
end

