-- ==== Sys2Proof/Syntax.lean ====
section
/-! DEFINITION. The 14 commands of 30_encoding.md R82, one constructor per row of spec/opcode_table.json. Operands
other than TONE's bit do not stand in the command word: they come on the operand ports (R80, R81). -/

namespace Sys2Proof

/-- A command, as the command word selects it (R82, R83). -/
inductive Instr where
  /-- CFGLOAD, opcode 0x1 (R210). -/
  | cfgload
  /-- TONE b, opcode 0x2, `b = arg[0]` (R100). -/
  | tone (b : Bit)
  /-- DOMFREQ, opcode 0x3 (R108). -/
  | domfreq
  /-- CLASSIFY, opcode 0x4 (R120). -/
  | classify
  /-- FRAME, opcode 0x5 (R130). -/
  | frame
  /-- DEFRAME, opcode 0x6 (R135). -/
  | deframe
  /-- CALIBRATE, opcode 0x7 (R150). -/
  | calibrate
  /-- MODULATE, opcode 0x8 (R165). -/
  | modulate
  /-- ENCODE, opcode 0x9 (R167). -/
  | encode
  /-- FEED, opcode 0xA (R180). -/
  | feed
  /-- SCAN, opcode 0xB (R176). -/
  | scan
  /-- RXSTART, opcode 0xC (R190). -/
  | rxstart
  /-- RXCHUNK, opcode 0xD (R192). -/
  | rxchunk
  /-- RXSTOP, opcode 0xE (R196). -/
  | rxstop
deriving DecidableEq, Repr

end Sys2Proof
end

