-- ==== Sys2Proof/WellFormed.lean ====
section
/-! DEFINITION. The checks on what the host presents to the core: the command word (30_encoding.md R84) and the
operands of DOMFREQ and the capture answers (20_memory.md R66; 40_symbol_codec.md R109). A term of `Instr` has no
ill-formed value: its one field is a bit. -/

namespace Sys2Proof

/-- The opcode field `w[7:4]` (R80). -/
def opc (w : Byte) : BitVec 4 := w.extractLsb' 4 4

/-- The argument field `w[3:0]` (R80). -/
def arg (w : Byte) : BitVec 4 := w.extractLsb' 0 4

/-- A command word is legal when its opcode is neither 0x0 nor 0xF and every argument bit that R80 says must be 0
is 0: `arg[3:1]` in every command, `arg[0]` in every command but TONE (R84). -/
def WordLegal (w : Byte) : Bool :=
  opc w != 0x0#4 && opc w != 0xF#4 && (arg w == 0#4 || (opc w == 0x2#4 && arg w == 1#4))

/-- Every command is a well-formed term: TONE's argument is one bit and no other command has an argument (R80). -/
def Instr.WellFormed : Instr → Bool
  | .cfgload | .tone _ | .domfreq | .classify | .frame | .deframe | .calibrate | .modulate | .encode | .feed | .scan
  | .rxstart | .rxchunk | .rxstop => true

/-- A chunk is a sequence of sample frames that all have the same number of channels (R66). -/
def ChunkWellFormed (c : Chunk) : Bool :=
  c.all fun f => f.length == (c.headD []).length

end Sys2Proof
end

