-- ==== Sys2Proof/Decode.lean ====
section
/-! DEFINITION. The command word: decoder, total on all 256 words, refusing by name, and encoder
(30_encoding.md R80, R82, R83, R84). -/

namespace Sys2Proof

/-- Why a command word is illegal (R84). -/
inductive IllegalWord where
  /-- `opc` is 0x0 or 0xF. -/
  | reservedOpcode
  /-- A bit of `arg` that must be 0 is 1. -/
  | argumentBits
deriving DecidableEq, Repr

/-- A command whose four argument bits must all be 0 (R80). -/
def noArg (i : Instr) (a : BitVec 4) : Except IllegalWord Instr :=
  if a = 0#4 then .ok i else .error .argumentBits

/-- TONE: `arg[3:1]` must be 0 and `arg[0]` is the bit (R80, R83). -/
def decodeTone (a : BitVec 4) : Except IllegalWord Instr :=
  if a.extractLsb' 1 3 = 0#3 then .ok (.tone (a.getLsbD 0)) else .error .argumentBits

/-- The command a word selects, or why it is illegal: the opcode map of R82 and the patterns of R83. -/
def decode (w : Byte) : Except IllegalWord Instr :=
  match (opc w).toNat with
  | 0x1 => noArg .cfgload (arg w)
  | 0x2 => decodeTone (arg w)
  | 0x3 => noArg .domfreq (arg w)
  | 0x4 => noArg .classify (arg w)
  | 0x5 => noArg .frame (arg w)
  | 0x6 => noArg .deframe (arg w)
  | 0x7 => noArg .calibrate (arg w)
  | 0x8 => noArg .modulate (arg w)
  | 0x9 => noArg .encode (arg w)
  | 0xA => noArg .feed (arg w)
  | 0xB => noArg .scan (arg w)
  | 0xC => noArg .rxstart (arg w)
  | 0xD => noArg .rxchunk (arg w)
  | 0xE => noArg .rxstop (arg w)
  | _   => .error .reservedOpcode

/-- The command word of a command: the patterns of R83. -/
def encode : Instr → Byte
  | .cfgload   => 0b00010000#8
  | .tone b    => 0b0010000#7 ++ BitVec.ofBool b
  | .domfreq   => 0b00110000#8
  | .classify  => 0b01000000#8
  | .frame     => 0b01010000#8
  | .deframe   => 0b01100000#8
  | .calibrate => 0b01110000#8
  | .modulate  => 0b10000000#8
  | .encode    => 0b10010000#8
  | .feed      => 0b10100000#8
  | .scan      => 0b10110000#8
  | .rxstart   => 0b11000000#8
  | .rxchunk   => 0b11010000#8
  | .rxstop    => 0b11100000#8

/-- The command word held in the low `nbits` bits of `w`; a command word has 8 bits (R80), so a number of more bits
is no command word. -/
def tableWord (nbits w : Nat) : Option Byte :=
  let v := w % 2 ^ nbits
  if v < 256 then some (BitVec.ofNat 8 v) else none

/-- The command the decoder reads from the word whose bits are `w`, numbered as spec/opcode_table.json numbers them. -/
def decodeTableWord (nbits w : Nat) : Option Instr :=
  match tableWord nbits w with
  | none => none
  | some b =>
    match decode b with
    | .ok i => some i
    | .error _ => none

end Sys2Proof
end

