-- ==== Sys2Proof/Machine/Bits.lean ====
section
/-! DEFINITION. Bit sequences and bytes: slices, marker search, conversion, checksum (00_scope.md R11 to R17), the
frame of 30_encoding.md R70, the deframer of 41_frame_codec.md R135 and one scanner call of 44_receive_pipeline.md
R176. Pure functions: the commands that use them stand in the family files. -/

namespace Sys2Proof.Machine

/-- `s[i..j)`, empty when `i ≥ j` (R11). -/
def slice (s : Bits) (i j : Nat) : Bits := (s.take j).drop i

/-- `s[i..)` (R11). -/
def sliceFrom (s : Bits) (i : Nat) : Bits := s.drop i

/-- `pat` stands in `s` at index `i` (R12). -/
def matchesAt (s pat : Bits) (i : Nat) : Bool :=
  decide (i + pat.length ≤ s.length) && slice s i (i + pat.length) == pat

/-- `find(s, pat, from)`: the least index `i ≥ from` at which `pat` stands in `s`, or none (R12). -/
def find (s pat : Bits) (start : Nat) : Option Nat :=
  (List.range (s.length + 1)).find? fun i => decide (start ≤ i) && matchesAt s pat i

/-- The start marker `11111110` (R17, R71). -/
def START : Bits := [ONE, ONE, ONE, ONE, ONE, ONE, ONE, ZERO]

/-- The end marker `01111111` (R17, R71). -/
def END : Bits := [ZERO, ONE, ONE, ONE, ONE, ONE, ONE, ONE]

/-- `bits(w)`: most significant bit first (R13, R51). -/
def bits (w : Byte) : Bits :=
  [w.getLsbD 7, w.getLsbD 6, w.getLsbD 5, w.getLsbD 4, w.getLsbD 3, w.getLsbD 2, w.getLsbD 1, w.getLsbD 0]

/-- `byteOf(s) = Σ s[i] * 2^(7-i)` for an 8-element bit sequence (R13). -/
def byteOf (s : Bits) : Byte :=
  BitVec.ofNat 8 (s.foldl (fun n b => 2 * n + b.toNat) 0)

/-- The bits of a byte sequence: each byte most significant bit first, bytes in payload order (R51, R72). -/
def bitsOf (p : Bytes) : Bits := p.flatMap bits

/-- The bytes of a bit sequence: bits `8i` to `8i+7` give byte `i` (R51, R135). -/
def bytesOf (s : Bits) : Bytes :=
  (List.range (s.length / 8)).map fun i => byteOf (slice s (8 * i) (8 * i + 8))

/-- `xorfold(P) = 0x00 ^ p0 ^ ... ^ p(n-1)` (R14). -/
def xorfold (p : Bytes) : Byte := p.foldl (fun a b => a ^^^ b) 0#8

/-- The body of a payload's frame: the payload field and the checksum field (R70). -/
def bodyOf (p : Bytes) : Bits := bitsOf p ++ bits (xorfold p)

/-- `frame(P)`: START, body, END (R70, R130). Marker patterns in the body are not looked for (R74, R132). -/
def frameBits (p : Bytes) : Bits := START ++ bodyOf p ++ END

/-- What `deframe` gives for a body of a positive whole number of bytes (R135). -/
structure Deframed where
  payload  : Bytes
  received : Byte
  valid    : Bool
deriving DecidableEq, Repr

/-- `deframe(body)`: the last byte is the received checksum, the bytes before it the payload, and `valid` compares the
payload's XOR-fold with it (R135). The checks on the length stand with the callers (R136, R137, R182). -/
def deframe (body : Bits) : Deframed :=
  let y := bytesOf body
  let payload := y.dropLast
  let rc := y.getLastD 0#8
  { payload := payload, received := rc, valid := xorfold payload == rc }

/-- One scanner call: the frame body found, if one is complete, and what stays in the buffer (R176 to R179). -/
def scan1 (buf : Bits) : Option Bits × Bits :=
  match find buf START 0 with
  | none => (none, sliceFrom buf (buf.length - min buf.length 7))
  | some s =>
    match find buf END (s + 8) with
    | none => (none, sliceFrom buf s)
    | some e => (some (slice buf (s + 8) e), sliceFrom buf (e + 8))

end Sys2Proof.Machine
end

