-- ==== Sys2Proof/Config.lean ====
section
/-! DEFINITION. What an implementation fixes: the parameters of 00_scope.md R10. The ones the spec leaves OPEN are
opaque constants (free values: nothing can evaluate them) or fields of `Params`, which State carries as plain data
because the step function has no other argument (10_state.md R37; log 10). -/

namespace Sys2Proof

/-- `SampleDom` with `Quant : ℝ → SampleDom` (R10, R222; log 1): the ideal domain ℝ, where `Quant` is the identity, or
the finite values of some fixed-point or floating-point format, which are rationals, where `Quant` is open (log 2). -/
inductive SampleDom where
  | ideal
  | rational
deriving DecidableEq, Repr, Inhabited

/-- `Magn`, the numerics of the magnitude spectrum (R10, R110, R222; log 3): ideal real arithmetic, where a magnitude is
the real number itself, or the arithmetic of some finite format, whose values are rationals and where `Magn` is open. -/
inductive MagnDom where
  | ideal
  | rational
deriving DecidableEq, Repr, Inhabited

/-- `ROUND_TIE` (R10, R15): which neighbour `round` gives at an exact half-integer. The spec admits either;
`free` says nothing is known, and then `Config.tieGoesUp` decides (log 5). -/
inductive RoundTie where
  | halfEven
  | halfUp
  | halfDown
  | free
deriving DecidableEq, Repr, Inhabited

/-- `HANN_DENOM` (R10, R110): `L - 1`, the symmetric window, or `L`, the periodic one (log 4). -/
inductive HannDenom where
  | symmetric
  | periodic
deriving DecidableEq, Repr, Inhabited

/-- `CHUNK_LEN` (R10): a fixed length of at least 2 (held as what it exceeds 2 by), or the recommended `NSYM`,
raised to 2 where `NSYM` is smaller (log 6). -/
inductive ChunkLen where
  | fixed (above2 : Nat)
  | nsym
deriving DecidableEq, Repr, Inhabited

/-- `CAL_COUNT_ROUND` (R10, R152): a calibration count that is not a positive integer is refused (recommended), or
becomes the count `Config.calCountLess1` gives, plus 1 (log 7). -/
inductive CalCountRound where
  | refuse
  | rounded
deriving DecidableEq, Repr, Inhabited

/-- The parameters of R10 the spec leaves open, as plain data. No step writes them.
`quant` and `magn` list what is known of `Quant` in a rational domain and of `Magn`; where a value is not listed, the
opaque `Config.quantSine`, `Config.magn` and `Config.magnOrder` stand for it (log 2, log 3). -/
structure Params where
  sampleDom     : SampleDom
  magnDom       : MagnDom
  roundTie      : RoundTie
  chunkLen      : ChunkLen
  hannDenom     : HannDenom
  calCountRound : CalCountRound
  /-- Rows `((amp, turns), v)`: `Quant(amp * sin(2π * turns)) = v`. -/
  quant         : List ((Rat × Rat) × Rat)
  /-- Rows `(x, ms)`: the magnitudes of the mono chunk `x` at bins 0, 1, ... are `ms`; in ideal arithmetic, they are
  ordered as `ms` are. -/
  magn          : List (List Sample × List Rat)
deriving DecidableEq, Repr

/-- FREE VALUE (log 1): `SampleDom`. -/
opaque Config.sampleDom : SampleDom

/-- FREE VALUE (log 3): which numerics `Magn` is. -/
opaque Config.magnDom : MagnDom

/-- FREE VALUE (log 5): whether `round` of the half-integer `n + 1/2` is `n + 1`. -/
opaque Config.tieGoesUp : Int → Bool

/-- FREE VALUE (log 6): what `CHUNK_LEN` is at reset. -/
opaque Config.chunkLen : ChunkLen

/-- FREE VALUE (log 4): `HANN_DENOM`. -/
opaque Config.hannDenom : HannDenom

/-- FREE VALUE (log 7): `CAL_COUNT_ROUND`. -/
opaque Config.calCountRound : CalCountRound

/-- FREE VALUE (log 7): one less than the sample count of a capture whose exact count `q` is not a positive
integer (R152); the count is at least 1 (46_common_laws.md R221). -/
opaque Config.calCountLess1 : Rat → Nat

/-- FREE VALUE (log 2): `Quant(amp * sin(2π * turns))` of R100, R104 in a rational domain, with `Quant` open. -/
opaque Config.quantSine : (amp turns : Rat) → Rat

/-- A term of the sum of R108: `sample * (1/2 - 1/2 * cos(2π * window)) * exp(-2πi * phase)`, with rational
`window = n / D` and `phase = k * n / L` (R110; log 3). -/
structure SpectrumTerm where
  sample : Sample
  window : Rat
  phase  : Rat
deriving DecidableEq, Repr

/-- A magnitude: a real number of at least 0 (R222), either a rational or the absolute value of the sum of such terms
(R108, R110). -/
inductive Magnitude where
  | rational (q : Rat)
  | absSum (terms : List SpectrumTerm)
deriving DecidableEq, Repr

/-- FREE VALUE (log 3): the absolute value of a sum of such terms (R108, R110) in the arithmetic of a finite format,
with `Magn` open. -/
opaque Config.magn : List SpectrumTerm → Rat

/-- FREE VALUE (log 3): a rational that gives the place of the absolute value of a sum of such terms in the order of the
real numbers, which no computation decides. -/
opaque Config.magnOrder : List SpectrumTerm → Rat

/-- `RESET_FS` (R10, R36). OPEN in the spec. DESIGN CHOICE (log 8): 48000 Hz. -/
def Config.resetFs : Rat := 48000

/-- `RESET_AMP` (R10, R36). OPEN in the spec. DESIGN CHOICE (log 9): 1/2. -/
def Config.resetAmp : Rat := 1 / 2

end Sys2Proof
end

