-- ==== Sys2Proof/Machine/Samples.lean ====
section
/-! DEFINITION. The arithmetic of sample values that the core needs outside the open numerics: the mean of a sample
frame (20_memory.md R66), and the values from which samples are made. It is linear, so it is exact in every sample
domain (log 1). -/

namespace Sys2Proof

/-- Add `c` times the number named `key` to a combination that lists each name once, in rising order, with no
coefficient 0. -/
def addTerm {κ : Type} [DecidableEq κ] [LT κ] [DecidableLT κ] (key : κ) (c : Rat) : List (κ × Rat) → List (κ × Rat)
  | [] => if c = 0 then [] else [(key, c)]
  | (k, d) :: rest =>
    if key = k then (if d + c = 0 then rest else (k, d + c) :: rest)
    else if key < k then (if c = 0 then (k, d) :: rest else (key, c) :: (k, d) :: rest)
    else (k, d) :: addTerm key c rest

/-- The sum of two combinations. -/
def addTerms {κ : Type} [DecidableEq κ] [LT κ] [DecidableLT κ] (a b : List (κ × Rat)) : List (κ × Rat) :=
  b.foldl (fun acc t => addTerm t.1 t.2 acc) a

/-- The sample 0. -/
def Sample.zero : Sample := ⟨0, [], []⟩

/-- The sample of a rational value. -/
def Sample.ofRat (q : Rat) : Sample := ⟨q, [], []⟩

/-- The sample `c * sin(2π * turns)`. -/
def Sample.ofSine (c turns : Rat) : Sample := ⟨0, addTerm turns c [], []⟩

/-- The sum of two samples. -/
def Sample.add (v w : Sample) : Sample :=
  ⟨v.num + w.num, addTerms v.sines w.sines, addTerms v.inputs w.inputs⟩

/-- A rational multiple of a sample. -/
def Sample.scale (a : Rat) (v : Sample) : Sample :=
  if a = 0 then Sample.zero
  else ⟨a * v.num, v.sines.map fun t => (t.1, a * t.2), v.inputs.map fun t => (t.1, a * t.2)⟩

/-- The sum of a list of samples. -/
def Sample.sum : List Sample → Sample
  | [] => Sample.zero
  | v :: vs => vs.foldl Sample.add v

/-- The arithmetic mean of a list of samples (R66). -/
def Sample.mean (f : List Sample) : Sample := (Sample.sum f).scale (1 / (f.length : Rat))

end Sys2Proof
end

