-- ==== Sys2Proof/Machine/State.lean ====
section
/-! DEFINITION. The state of one core instance as plain data (10_state.md R20 to R31), the ports and collaborators it
meets (30_encoding.md R81; 60_exceptions.md R250 to R254), what can stop a step, and the state after reset (R36). -/

namespace Sys2Proof.Machine

/-- ModemConfig: the six CFG registers, each an exact rational (R21). It is also the record on CFGIN (R81). -/
structure ModemConfig where
  fs   : Rat
  tbit : Rat
  f0   : Rat
  f1   : Rat
  tol  : Rat
  amp  : Rat
deriving DecidableEq, Repr

/-- The cause a CalibrationError carries: 0 or 1 (R231). -/
inductive CalCause where
  | tooFewBins
  | degenerate
deriving DecidableEq, Repr

/-- An event of EVT with its information (R231). -/
inductive Event where
  /-- 0x00: the payload after `Post` (R232). -/
  | frameOk (payload : Bytes)
  /-- 0x01, fatal: index 1 to 8 of the first failing condition of R211 (R240). -/
  | configError (which : Nat)
  /-- 0x02, fatal (R245). -/
  | resourceError
  /-- 0x10, warning (R248). -/
  | captureOverflow
  /-- 0x11, warning: "never by the core" (R248). -/
  | captureUnderflow
  /-- 0x20: the length of the body in bits (R241). -/
  | unalignedBody (len : Nat)
  /-- 0x21 (R242). -/
  | emptyBody
  /-- 0x22: the received and the computed checksum byte (R243). -/
  | checksumMismatch (received computed : Byte)
  /-- 0x23 (R244). -/
  | confidentialityError
  /-- 0x30 (R249). -/
  | calibrationError (cause : CalCause)
  /-- 0x40: the command word (R246). -/
  | commandError (word : Byte)
  /-- 0x41: the command word (R247). -/
  | operandError (word : Byte)
  /-- 0x50 (R238). -/
  | interrupted
deriving DecidableEq, Repr

/-- A value delivered on RES (R81, R82). -/
inductive Result where
  /-- DOMFREQ: the dominant frequency, Hz (R108). -/
  | frequency (f : Rat)
  /-- CLASSIFY: ZERO, ONE or None (R120). -/
  | classified (c : Option Bit)
  /-- FRAME: the frame (R130). -/
  | framed (bits : Bits)
  /-- DEFRAME: the payload and checksumValid (R135). -/
  | deframed (payload : Bytes) (checksumValid : Bool)
  /-- CALIBRATE: (freqLow, freqHigh), Hz (R150). -/
  | carriers (freqLow freqHigh : Int)
  /-- SCAN: none, or (frameBody, remainder) (R176). -/
  | scanned (found : Option (Bits × Bits))
deriving DecidableEq, Repr

/-- A value delivered on WAVE: the samples and the sample rate (R81, R170). -/
structure Waveform where
  samples : List Sample
  rate    : Rat
deriving DecidableEq, Repr

/-- A value delivered on SPEC: the spectrum snapshot (R81, R114). -/
structure Spectrum where
  bins       : List Rat
  magnitudes : List Magnitude
deriving DecidableEq, Repr

/-- The two rationals on CALIN (R81, R150). -/
structure CalIn where
  windowSeconds : Rat
  minFreq       : Rat
deriving DecidableEq, Repr

/-- The values at the operand ports (R81). -/
structure Operands where
  cfgin : ModemConfig
  bytes : Bytes
  bits  : Bits
  samp  : Chunk
  freq  : Rat
  calin : CalIn
deriving DecidableEq, Repr

/-- A command as the host issues it: the word on CMD and the operand values beside it (R80, R81; log 11). -/
structure Command where
  word     : Byte
  operands : Operands
deriving DecidableEq, Repr

/-- What the outside presents during one step: the levels RESET and ABORT (R216, R217), what `Capture.open` answers
(R250), the sample frames that arrive at the capture collaborator, and whether it lost samples (R38; log 12). -/
structure World where
  reset    : Bool
  abort    : Bool
  canOpen  : Bool
  arriving : List SampleFrame
  lost     : Bool
deriving DecidableEq, Repr

/-- The capture collaborator's own side: the sample frames it holds, oldest first, and the overflow flag that comes
with the next read (R38, R59, R250; log 14). -/
structure Mic where
  frames : List SampleFrame
  ovf    : Bool
deriving DecidableEq, Repr

/-- One answer of `Post` (R184): the payload itself (no key is present), a failure, or other bytes. -/
inductive PostAnswer where
  | identity
  | fails
  | gives (r : Bytes)
deriving DecidableEq, Repr

/-- A call to a collaborator (R16, R250, R184). -/
inductive Call where
  | captureOpen (answer : Bool)
  | captureRead (n : Nat)
  | captureClose
  | post (payload : Bytes)
deriving DecidableEq, Repr

/-- A command blocked in `Capture.read` (R194, R150; log 13): RXCHUNK, or CALIBRATE with its sample count and
`minFreq`. -/
inductive Busy where
  | rxchunk
  | calibrate (count : Nat) (minFreq : Rat)
deriving DecidableEq, Repr

/-- The state. `cfg`, `bitbuf`, `rxRun`, `fatal`, `evt` are the spec's (R20, R31); the rest is the model's own: what
stands at the ports, what the outside will do, and the parameters of R10 (R37; logs 10 to 18). -/
structure State where
  cfg    : ModemConfig
  bitbuf : Bits
  rxRun  : Bool
  fatal  : Bool
  evt    : List Event
  busy   : Option Busy
  res    : Option Result
  wave   : Option Waveform
  spec   : Option Spectrum
  calls  : List Call
  cmd    : List Command
  ports  : Operands
  now    : World
  later  : List World
  mic    : Mic
  post   : List PostAnswer
  params : Params
deriving DecidableEq, Repr

/-- What stops the machine. Nothing does: every command in every state has a next state, errors being events on EVT
(R230, R234, R246), and a fatal error leaves a machine that refuses commands until RESET (R236, R237). -/
inductive Fault where
deriving DecidableEq, Repr

/-- A command without a meaning. Raised by no arm of this model; safe. -/
inductive Refusal where
  /-- The command named has no meaning yet: raised only by exec's own arms; safe. -/
  | notModelled (mnemonic : String)
deriving DecidableEq, Repr

/-- The reset configuration (R36): the document's defaults, with DESIGN CHOICE values for `fs` (log 8) and `amp`
(log 9), which the spec leaves open. -/
def resetConfig : ModemConfig :=
  { fs := Config.resetFs, tbit := 1 / 10, f0 := 18000, f1 := 19000, tol := 300, amp := Config.resetAmp }

/-- The operand ports before any command. DESIGN CHOICE (log 11): the reset configuration, empty sequences, two
silent mono sample frames, 0 Hz, and the document's calibration operands (R151). -/
def Operands.atReset : Operands :=
  { cfgin := resetConfig, bytes := [], bits := [], samp := [[Sample.zero], [Sample.zero]], freq := 0, calin := ⟨2, 15000⟩ }

/-- Nothing asserted, nothing arriving, and a capture device that opens. DESIGN CHOICE (log 12, log 15). -/
def World.quiet : World := { reset := false, abort := false, canOpen := true, arriving := [], lost := false }

/-- The open parameters as free values (log 10). -/
def Params.unknown : Params :=
  { sampleDom := Config.sampleDom, magnDom := Config.magnDom, roundTie := .free, chunkLen := Config.chunkLen, hannDenom := Config.hannDenom,
    calCountRound := Config.calCountRound, quant := [], magn := [] }

/-- The state after reset (R36, R270). What is not the spec's is DESIGN CHOICE: the ports (log 11), a quiet world (log
12), no command in progress (log 13), a capture collaborator that holds no sample frames and whose overflow flag is clear,
for which R250 gives no start value (log 14), no answer of `Post` listed (log 16), nothing delivered or called (log 18),
and the open parameters as free values (log 10). -/
def State.reset : State :=
  { cfg := resetConfig, bitbuf := [], rxRun := false, fatal := false, evt := [], busy := none, res := none,
    wave := none, spec := none, calls := [], cmd := [], ports := Operands.atReset, now := World.quiet, later := [],
    mic := ⟨[], false⟩, post := [], params := Params.unknown }

end Sys2Proof.Machine
end

