-- ==== Sys2Proof/Machine/Flags.lean ====
section
/-! DEFINITION. The status flags (10_state.md R35). RX_RUN and FATAL are fields of State; SCAN_STATE is derived (R27);
`checksumValid` is the flag of `deframe` (R135), `ovf` the flag of a captured chunk (R250). Also the numbers and
classes of the events (60_exceptions.md R231). -/

namespace Sys2Proof.Machine

/-- The scanner's two states (R27, R175). -/
inductive ScanState where
  | scanning
  | inFrame
deriving DecidableEq, Repr

/-- `SCAN_STATE`: `IN_FRAME` when the buffer has at least 8 bits and begins with START (R27). -/
def scanState (buf : Bits) : ScanState :=
  if 8 ≤ buf.length ∧ slice buf 0 8 = START then .inFrame else .scanning

/-- `checksumValid` of a body (R135). -/
def checksumValid (body : Bits) : Bool := (deframe body).valid

/-- The capture resource is held: while the receive loop runs (R29), and inside a CALIBRATE that waits for its capture
(R153, R250; log 13). -/
def captureHeld (s : State) : Bool :=
  s.rxRun ||
    match s.busy with
    | some (.calibrate _ _) => true
    | _ => false

/-- The code of an event (R231). -/
def Event.code : Event → Byte
  | .frameOk _ => 0x00#8
  | .configError _ => 0x01#8
  | .resourceError => 0x02#8
  | .captureOverflow => 0x10#8
  | .captureUnderflow => 0x11#8
  | .unalignedBody _ => 0x20#8
  | .emptyBody => 0x21#8
  | .checksumMismatch _ _ => 0x22#8
  | .confidentialityError => 0x23#8
  | .calibrationError _ => 0x30#8
  | .commandError _ => 0x40#8
  | .operandError _ => 0x41#8
  | .interrupted => 0x50#8

/-- The two fatal events (R231, R236). -/
def Event.isFatal : Event → Bool
  | .configError _ | .resourceError => true
  | .frameOk _ | .captureOverflow | .captureUnderflow | .unalignedBody _ | .emptyBody | .checksumMismatch _ _
  | .confidentialityError | .calibrationError _ | .commandError _ | .operandError _ | .interrupted => false

/-- The number a CalibrationError carries (R231). -/
def CalCause.number : CalCause → Nat
  | .tooFewBins => 0
  | .degenerate => 1

end Sys2Proof.Machine
end

