-- ==== Sys2Proof/Machine/Numerics.lean ====
section
/-! DEFINITION. Exact rational arithmetic and the parameters that stand for real arithmetic: `round` (00_scope.md
R15), the tone sample (40_symbol_codec.md R100), the magnitude spectrum (R110), the choice of the greatest magnitude
(R112; 42_calibrator.md R157), `sampleCount` (R152) and `CHUNK_LEN` (R10). -/

namespace Sys2Proof.Machine

/-- Which neighbour of the half-integer `n + 1/2` is taken: true for `n + 1` (R15; log 5). -/
def tieUp (t : RoundTie) (n : Int) : Bool :=
  match t with
  | .halfEven => n % 2 != 0
  | .halfUp => true
  | .halfDown => false
  | .free => Config.tieGoesUp n

/-- `round(x)`: an integer `n` with `|n - x| ≤ 1/2`, at a half-integer the neighbour `ROUND_TIE` says (R15). -/
def roundQ (t : RoundTie) (x : Rat) : Int :=
  let n := x.floor
  let d := x - (n : Rat)
  if d < 1 / 2 then n
  else if 1 / 2 < d then n + 1
  else if tieUp t n then n + 1 else n

/-- `NSYM = round(CFG.fs * CFG.tbit)`, a non-negative integer (R22). -/
def nsym (p : Params) (c : ModemConfig) : Nat := (roundQ p.roundTie (c.fs * c.tbit)).toNat

/-- `BITRATE = 1 / CFG.tbit` (R22). -/
def bitrate (c : ModemConfig) : Rat := 1 / c.tbit

/-- `CHUNK_LEN`, at least 2 (R10; log 6). -/
def chunkLen (p : Params) (c : ModemConfig) : Nat :=
  match p.chunkLen with
  | .fixed n => n + 2
  | .nsym => max 2 (nsym p c)

/-- `D = HANN_DENOM` for a chunk of `l` samples (R110). -/
def hannDenom (p : Params) (l : Nat) : Nat :=
  match p.hannDenom with
  | .symmetric => l - 1
  | .periodic => l

/-- The carrier of a bit: `CFG.f1` for ONE, `CFG.f0` for ZERO (R100). -/
def carrier (c : ModemConfig) (b : Bit) : Rat := if b then c.f1 else c.f0

/-- Rational arguments of the real number `amp * sin(2π * turns)`, reduced so that a sample depends on that number
alone where this is evident: the sine has period 1 in `turns`, and the number is 0 when `amp = 0` or `turns` is a
multiple of 1/2 (R100, R103; log 2). -/
def sineArgs (amp turns : Rat) : Rat × Rat :=
  let t := turns - (turns.floor : Rat)
  if amp = 0 ∨ t = 0 ∨ t = 1 / 2 then (0, 0) else (amp, t)

/-- `Quant(amp * sin(2π * turns))` (R100, R104): the real number itself in the ideal domain, where `Quant` is the
identity (R10), and otherwise what `Quant` makes of it (log 2). -/
def quantSine (p : Params) (amp turns : Rat) : Sample :=
  let a := sineArgs amp turns
  match p.sampleDom with
  | .ideal => Sample.ofSine a.1 a.2
  | .rational => Sample.ofRat ((p.quant.lookup a).getD (Config.quantSine a.1 a.2))

/-- `tone(b)`: sample `n` is `Quant(CFG.amp * sin(2π * f * n / CFG.fs))` for `n = 0 .. NSYM-1`, `f` the carrier of
`b`; every symbol starts at phase 0 (R100, R102). -/
def tone (p : Params) (c : ModemConfig) (b : Bit) : List Sample :=
  (List.range (nsym p c)).map fun n => quantSine p c.amp (carrier c b * (n : Rat) / c.fs)

/-- The tones of a bit sequence, in bit order, with no gap (R165, R171). -/
def toneBits (p : Params) (c : ModemConfig) (s : Bits) : List Sample := s.flatMap (tone p c)

/-- The sum whose absolute value is `mag[k]`: the `k`-th coefficient of the length-`L` discrete Fourier transform of
the Hann-windowed mono chunk, term by term (R108, R110). It is neither padded nor truncated (R112). -/
def spectrumSum (p : Params) (x : List Sample) (k : Nat) : List SpectrumTerm :=
  (List.range x.length).map fun n =>
    { sample := x.getD n Sample.zero
      window := (n : Rat) / (hannDenom p x.length : Rat)
      phase := (k : Rat) * (n : Rat) / (x.length : Rat) }

/-- The mono chunk `x` is silent: all its samples are 0 (R113). -/
def silent (x : List Sample) : Bool := x.all fun v => v == Sample.zero

/-- The rational by which the magnitude of bin `k` of the mono chunk `x` is compared with those of the other bins: the
magnitude itself in the arithmetic of a finite format, its place in the order of the real numbers in ideal arithmetic
(log 3); never negative (R222), and 0 for a silent chunk (R113). -/
def magnKey (p : Params) (x : List Sample) (k : Nat) : Rat :=
  if silent x then 0
  else
    |((p.magn.lookup x).bind fun ms => ms[k]?).getD
      (match p.magnDom with
      | .ideal => Config.magnOrder (spectrumSum p x k)
      | .rational => Config.magn (spectrumSum p x k))|

/-- `mag[k]` of the mono chunk `x` (R108, R110) in the numerics `Magn`: in ideal arithmetic the real number of R108
itself, otherwise a rational (R10, R222; log 3). -/
def magnitude (p : Params) (x : List Sample) (k : Nat) : Magnitude :=
  match p.magnDom with
  | .ideal => .absSum (spectrumSum p x k)
  | .rational => .rational (magnKey p x k)

/-- The frequency of bin `k` of an `l`-sample spectrum: `k * fs / l` (R108, R110). -/
def binFreq (fs : Rat) (l k : Nat) : Rat := (k : Rat) * fs / (l : Rat)

/-- The bins `0 .. floor(l/2)` of an `l`-sample spectrum (R110). -/
def binsOf (l : Nat) : List Nat := List.range (l / 2 + 1)

/-- The first bin of the list with the greatest magnitude: of an increasing list, the least such bin (R112, R157). -/
def firstMax (mag : Nat → Rat) : List Nat → Option Nat
  | [] => none
  | k :: ks => some (ks.foldl (fun best j => if mag best < mag j then j else best) k)

/-- `kmax`: the least bin of greatest magnitude over the whole spectrum (R108, R112). -/
def kmax (p : Params) (x : List Sample) : Nat := (firstMax (magnKey p x) (binsOf x.length)).getD 0

/-- The frequency `dominantFrequency` returns (R108). -/
def domfreq (p : Params) (fs : Rat) (x : List Sample) : Rat := binFreq fs x.length (kmax p x)

/-- The spectrum snapshot `dominantFrequency` returns beside it (R108, R114). -/
def spectrum (p : Params) (fs : Rat) (x : List Sample) : Spectrum :=
  { bins := (binsOf x.length).map (binFreq fs x.length), magnitudes := (binsOf x.length).map (magnitude p x) }

/-- `classify(f, cfg)`: ZERO's closed window first, then ONE's, else None; the comparison is exact (R120 to R122). -/
def classify (c : ModemConfig) (f : Rat) : Option Bit :=
  if |f - c.f0| ≤ c.tol then some ZERO
  else if |f - c.f1| ≤ c.tol then some ONE
  else none

/-- `sampleCount(q)`: `q` when it is a positive integer, otherwise as `CAL_COUNT_ROUND` says; none is a refusal
(R152; log 7). -/
def sampleCount (p : Params) (q : Rat) : Option Nat :=
  if q.den = 1 ∧ 0 < q.num then some q.num.toNat
  else
    match p.calCountRound with
    | .refuse => none
    | .rounded => some (Config.calCountLess1 q + 1)

/-- `K`: the bins of an `m`-sample capture at or above `minFreq`, in increasing order (R154). -/
def binsFrom (fs : Rat) (m : Nat) (minFreq : Rat) : List Nat :=
  (binsOf m).filter fun k => decide (minFreq ≤ binFreq fs m k)

/-- The two bins `(k1, k2)` of greatest magnitude in `K`, least index first on ties, if `K` has two (R150, R157). -/
def twoGreatest (mag : Nat → Rat) (ks : List Nat) : Option (Nat × Nat) :=
  match firstMax mag ks with
  | none => none
  | some k1 =>
    match firstMax mag (ks.filter fun k => k != k1) with
    | none => none
    | some k2 => some (k1, k2)

/-- The outcome of a calibration analysis (R150, R156). -/
inductive CalResult where
  | failed (cause : CalCause)
  | pair (low high : Int)
deriving DecidableEq, Repr

/-- The analysis of CALIBRATE on the mono capture `x`: two greatest bins of `K`, each rounded to the nearest Hz,
ordered after rounding (R150, R154 to R158). -/
def analyse (p : Params) (fs minFreq : Rat) (x : List Sample) : CalResult :=
  match twoGreatest (magnKey p x) (binsFrom fs x.length minFreq) with
  | none => .failed .tooFewBins
  | some (k1, k2) =>
    let r1 := roundQ p.roundTie (binFreq fs x.length k1)
    let r2 := roundQ p.roundTie (binFreq fs x.length k2)
    if r1 = r2 then .failed .degenerate else .pair (min r1 r2) (max r1 r2)

end Sys2Proof.Machine
end

