-- ==== Sys2Proof/Machine/Operands.lean ====
section
/-! DEFINITION. What is computed from an operand before a command uses it: the mono reduction (20_memory.md R66), the
preconditions of DOMFREQ and CALIBRATE (30_encoding.md R87) and the validity of a configuration record
(45_control.md R211). -/

namespace Sys2Proof.Machine

/-- The arithmetic mean of the channel values of one sample frame (R66). -/
def monoFrame (f : SampleFrame) : Sample := Sample.mean f

/-- `mono(chunk)`: one sample a frame (R66). -/
def mono (c : Chunk) : List Sample := c.map monoFrame

/-- DOMFREQ needs `L ≥ 2` and `C ≥ 1` (R109). -/
def domfreqOperandOk (c : Chunk) : Bool := decide (2 ≤ c.length) && c.all fun f => decide (1 ≤ f.length)

/-- The eight conditions of R211 in the order listed there. -/
def configConditions (c : ModemConfig) : List Bool :=
  [decide (0 < c.fs), decide (0 < c.tbit), decide (0 < c.f0), decide (0 < c.f1), decide (c.f0 ≠ c.f1),
   decide (0 ≤ c.tol), decide (0 ≤ c.amp ∧ c.amp ≤ 1), decide (c.tol < |c.f0 - c.f1| / 2)]

/-- `valid(fs, tbit, f0, f1, tol, amp)` holds exactly when all eight conditions hold (R211). -/
def configValid (c : ModemConfig) : Bool := (configConditions c).all id

/-- `which`: the number, 1 to 8, of the first condition of R211 that fails. -/
def firstFailing (c : ModemConfig) : Option Nat :=
  ((configConditions c).findIdx? fun b => !b).map (· + 1)

/-- The sample count of a CALIBRATE operand, or none where the operand is refused with OperandError:
`windowSeconds ≤ 0`, `minFreq < 0`, or a count that `CAL_COUNT_ROUND` refuses (R151, R152). -/
def calibrateCount (p : Params) (fs : Rat) (c : CalIn) : Option Nat :=
  if c.windowSeconds ≤ 0 ∨ c.minFreq < 0 then none else sampleCount p (fs * c.windowSeconds)

end Sys2Proof.Machine
end

