-- ==== Sys2Proof/Machine/Ops.lean ====
section
/-! DEFINITION. The shared operations over the state: reporting an event, the fatal error, the refusals, the exit by
ABORT, reset (00_scope.md R16; 60_exceptions.md R230 to R239; 45_control.md R216, R217), the calls to collaborators
(R250, R184), and the handling of a frame and the drain loop (44_receive_pipeline.md R180 to R184). They stand where a
processor has taking an exception and returning from it: the core saves nothing and transfers control nowhere (R234),
and goes on by itself (R235). -/

namespace Sys2Proof.Machine

/-- `report E(info)`: append the event to EVT, nothing else (R16, R235). -/
def State.report (s : State) (e : Event) : State := { s with evt := s.evt ++ [e] }

/-- `out RES(v)` (R16). -/
def State.outRes (s : State) (r : Result) : State := { s with res := some r }

/-- `out WAVE(w, CFG.fs)` (R16, R170). -/
def State.outWave (s : State) (w : List Sample) : State := { s with wave := some ⟨w, s.cfg.fs⟩ }

/-- `out SPEC(bins, mag)` (R16, R114). -/
def State.outSpec (s : State) (v : Spectrum) : State := { s with spec := some v }

/-- `BITBUF <- b` (R16). -/
def State.setBitbuf (s : State) (b : Bits) : State := { s with bitbuf := b }

/-- A call to a collaborator, noted in `calls` (log 18). -/
def State.call (s : State) (c : Call) : State := { s with calls := s.calls ++ [c] }

/-- `Capture.close()` (R250). -/
def State.captureClose (s : State) : State := s.call .captureClose

/-- `Capture.open()`: its answer is the level the outside presents (R250; log 15). -/
def State.captureOpen (s : State) : Bool × State := (s.now.canOpen, s.call (.captureOpen s.now.canOpen))

/-- `Capture.read(n)`: the next `n` sample frames with the overflow flag, which are then consumed; none while fewer
than `n` have been delivered (R59, R194, R250; log 14). -/
def State.captureRead (s : State) (n : Nat) : Option (Chunk × Bool × State) :=
  if n ≤ s.mic.frames.length then
    some (s.mic.frames.take n, s.mic.ovf, { s with mic := ⟨s.mic.frames.drop n, false⟩ }.call (.captureRead n))
  else none

/-- What an answer of `Post` makes of the payload (R184; log 16). -/
def PostAnswer.apply (a : PostAnswer) (payload : Bytes) : Option Bytes :=
  match a with
  | .identity => some payload
  | .fails => none
  | .gives r => some r

/-- `Post(payload)`: the next listed answer, and the identity (no key) when none is listed (R184; log 16). -/
def State.callPost (s : State) (payload : Bytes) : Option Bytes × State :=
  ((s.post.headD .identity).apply payload, { s with post := s.post.tail }.call (.post payload))

/-- `fatal E(info)`: report; if the receive loop runs, release the capture, leave the loop and clear BITBUF; set
FATAL. The command ends with no result (R236). -/
def State.fatalError (s : State) (e : Event) : State :=
  let s1 := s.report e
  let s2 := if s1.rxRun then { s1.captureClose with rxRun := false, bitbuf := [] } else s1
  { s2 with fatal := true }

/-- `abort_exit()` (R217). -/
def State.abortExit (s : State) : State :=
  { s.captureClose with bitbuf := [], rxRun := false }.report .interrupted

/-- The effect of the RESET input: every piece of state at its reset value, a blocked command abandoned with no
result, the capture released if it was held (R216, R36). What is outside the core stays (log 19). -/
def State.resetCore (s : State) : State :=
  let released := if captureHeld s then s.captureClose else s
  { released with
    cfg := State.reset.cfg, bitbuf := State.reset.bitbuf, rxRun := State.reset.rxRun, fatal := State.reset.fatal,
    evt := State.reset.evt, busy := none, res := none, wave := none, spec := none }

/-- A refusal of the command: CommandError with its word, nothing else changes (R84, R85, R246). -/
def State.refuseCommand (s : State) (word : Byte) : State := s.report (.commandError word)

/-- A refusal of the operand: OperandError with the command word, nothing else changes (R87, R247). -/
def State.refuseOperand (s : State) (word : Byte) : State := s.report (.operandError word)

/-- Run a command: refused while FATAL is 1 and in a state that does not admit it, in that order, both with
CommandError (R85, R233, R237); otherwise its effect. -/
def runCommand (i : Instr) (admitted : Bool) (s : State) (effect : State) : Host.Outcome State Fault Refusal :=
  .next (if s.fatal then s.refuseCommand (encode i) else if admitted then effect else s.refuseCommand (encode i))

/-- `handle(body)`: the first check that fails ends the handling of this frame; BITBUF is not written (R182 to
R184). -/
def State.handle (s : State) (body : Bits) : State :=
  if body.length % 8 ≠ 0 then s.report (.unalignedBody body.length)
  else if body.length = 0 then s.report .emptyBody
  else
    let d := deframe body
    if !d.valid then s.report (.checksumMismatch d.received (xorfold d.payload))
    else
      match s.callPost d.payload with
      | (none, s') => s'.report .confidentialityError
      | (some r, s') => s'.report (.frameOk r)

/-- The drain loop of R180, for at most `fuel` passes that emit a frame. -/
def drainLoop : Nat → State → State
  | 0, s => s
  | fuel + 1, s =>
    match scan1 s.bitbuf with
    | (none, rest) => s.setBitbuf rest
    | (some body, rest) => drainLoop fuel ((s.setBitbuf rest).handle body)

/-- `drain()`: scan until nothing is emitted (R180, R181). Every pass that emits a frame removes at least 16 bits, so
one more pass than the buffer has bits is never used up. -/
def State.drain (s : State) : State := drainLoop (s.bitbuf.length + 1) s

/-- `BITBUF <- BITBUF ++ S; drain()` (R180, R192). -/
def State.appendAndDrain (s : State) (b : Bits) : State := (s.setBitbuf (s.bitbuf ++ b)).drain

end Sys2Proof.Machine
end

