-- ==== Sys2Proof/Machine/Calibrator.lean ====
section
/-! DEFINITION. The Calibrator: CALIBRATE (42_calibrator.md), with the capture it may have to wait for (R153, R297;
log 13). It never changes CFG or BITBUF (R159, R160). -/

namespace Sys2Proof.Machine

/-- CALIBRATE once its capture has been read: close, warn of an overflow, analyse, deliver the pair or report
CalibrationError (R150, R153, R156). -/
def calibrateFinish (minFreq : Rat) (chunk : Chunk) (ovf : Bool) (s : State) : State :=
  let s1 := s.captureClose
  let s2 := if ovf then s1.report .captureOverflow else s1
  match analyse s.params s.cfg.fs minFreq (mono chunk) with
  | .failed cause => s2.report (.calibrationError cause)
  | .pair low high => s2.outRes (.carriers low high)

/-- The blocking read of CALIBRATE: it waits while the collaborator has too few sample frames (R153). -/
def calibrateRead (count : Nat) (minFreq : Rat) (s : State) : State :=
  match s.captureRead count with
  | none => { s with busy := some (.calibrate count minFreq) }
  | some (chunk, ovf, s') => calibrateFinish minFreq chunk ovf { s' with busy := none }

/-- CALIBRATE after its operand checks: open the capture, or the fatal ResourceError (R150, R153, R245). -/
def calibrateOpen (count : Nat) (minFreq : Rat) (s : State) : State :=
  match s.captureOpen with
  | (false, s') => s'.fatalError .resourceError
  | (true, s') => calibrateRead count minFreq s'

/-- CALIBRATE (R150); refused while RX_RUN is 1 (R85), and with OperandError for a bad operand (R151, R152). -/
def execCalibrate (s : State) : Host.Outcome State Fault Refusal :=
  runCommand .calibrate (!s.rxRun) s
    (match calibrateCount s.params s.cfg.fs s.ports.calin with
    | none => s.refuseOperand (encode .calibrate)
    | some count => calibrateOpen count s.ports.calin.minFreq s)

end Sys2Proof.Machine
end

