-- ==== Sys2Proof/Machine/Control.lean ====
section
/-! DEFINITION. CFGLOAD (45_control.md R210 to R215). -/

namespace Sys2Proof.Machine

/-- CFGLOAD: all six CFG registers from the record operand, or the fatal ConfigError naming the first failing
condition (R210, R211); refused while RX_RUN is 1 (R85). -/
def execCfgload (s : State) : Host.Outcome State Fault Refusal :=
  runCommand .cfgload (!s.rxRun) s
    (match firstFailing s.ports.cfgin with
    | none => { s with cfg := s.ports.cfgin }
    | some which => s.fatalError (.configError which))

end Sys2Proof.Machine
end

