-- ==== Sys2Proof/Machine/Frame.lean ====
section
/-! DEFINITION. The Frame Codec: FRAME, DEFRAME (41_frame_codec.md). Neither reads a register or changes one. -/

namespace Sys2Proof.Machine

/-- FRAME: the frame of the payload operand on RES (R130 to R133). -/
def execFrame (s : State) : Host.Outcome State Fault Refusal :=
  runCommand .frame true s (s.outRes (.framed (frameBits s.ports.bytes)))

/-- DEFRAME: payload and checksumValid on RES, valid or not (R135, R138); an operand that is not a whole number of
bytes is refused with UnalignedBody (R136), an empty one with EmptyBody (R137). -/
def execDeframe (s : State) : Host.Outcome State Fault Refusal :=
  runCommand .deframe true s
    (if s.ports.bits.length % 8 ≠ 0 then s.report (.unalignedBody s.ports.bits.length)
    else if s.ports.bits.length = 0 then s.report .emptyBody
    else s.outRes (.deframed (deframe s.ports.bits).payload (deframe s.ports.bits).valid))

end Sys2Proof.Machine
end

