-- ==== Sys2Proof/Machine/Receive.lean ====
section
/-! DEFINITION. The Receive Pipeline and Frame Scanner: FEED, SCAN, RXSTART, RXCHUNK, RXSTOP
(44_receive_pipeline.md), with the ABORT input (45_control.md R217). -/

namespace Sys2Proof.Machine

/-- FEED: append the bit sequence operand, then drain (R180). -/
def execFeed (s : State) : Host.Outcome State Fault Refusal :=
  runCommand .feed true s (s.appendAndDrain s.ports.bits)

/-- What SCAN delivers for a scanner call: none, or the body with the remainder (R176). -/
def scanResult (r : Option Bits × Bits) : Result := .scanned (r.1.map fun body => (body, r.2))

/-- SCAN: one scanner call on BITBUF; no event (R176). -/
def execScan (s : State) : Host.Outcome State Fault Refusal :=
  runCommand .scan true s ((s.setBitbuf (scan1 s.bitbuf).2).outRes (scanResult (scan1 s.bitbuf)))

/-- RXSTART after its check: acquire the capture, or the fatal ResourceError; then BITBUF empty, RX_RUN 1 (R190). -/
def rxstartOpen (s : State) : State :=
  match s.captureOpen with
  | (false, s') => s'.fatalError .resourceError
  | (true, s') => { s' with bitbuf := [], rxRun := true }

/-- RXSTART (R190); refused while RX_RUN is 1 (R85). -/
def execRxstart (s : State) : Host.Outcome State Fault Refusal :=
  runCommand .rxstart (!s.rxRun) s (rxstartOpen s)

/-- RXCHUNK once its chunk has been read, in the order of R64: overflow warning, mono, dominant frequency, classify,
append the bit if there is one, drain (R192, R193, R195). -/
def rxProcess (chunk : Chunk) (ovf : Bool) (s : State) : State :=
  let s1 := if ovf then s.report .captureOverflow else s
  let s2 := s1.outSpec (spectrum s.params s.cfg.fs (mono chunk))
  match classify s.cfg (domfreq s.params s.cfg.fs (mono chunk)) with
  | none => s2
  | some b => s2.appendAndDrain [b]

/-- The blocking read of RXCHUNK: it waits while the collaborator has too few sample frames (R194). -/
def rxRead (s : State) : State :=
  match s.captureRead (chunkLen s.params s.cfg) with
  | none => { s with busy := some .rxchunk }
  | some (chunk, ovf, s') => rxProcess chunk ovf { s' with busy := none }

/-- RXCHUNK (R192): ABORT is looked at first, before the read (R217, R233); refused while RX_RUN is 0 (R85). -/
def execRxchunk (s : State) : Host.Outcome State Fault Refusal :=
  runCommand .rxchunk s.rxRun s (if s.now.abort then s.abortExit else rxRead s)

/-- RXSTOP: release the capture, BITBUF empty, RX_RUN 0 (R196); refused while RX_RUN is 0 (R85). -/
def execRxstop (s : State) : Host.Outcome State Fault Refusal :=
  runCommand .rxstop s.rxRun s { s.captureClose with bitbuf := [], rxRun := false }

end Sys2Proof.Machine
end

