-- ==== Sys2Proof/Machine/Symbol.lean ====
section
/-! DEFINITION. The Symbol Codec: TONE, DOMFREQ, CLASSIFY (40_symbol_codec.md). None of them changes CFG, BITBUF,
RX_RUN or FATAL. -/

namespace Sys2Proof.Machine

/-- TONE b: the NSYM samples of the symbol on WAVE with CFG.fs (R100 to R103). -/
def execTone (b : Bit) (s : State) : Host.Outcome State Fault Refusal :=
  runCommand (.tone b) true s (s.outWave (tone s.params s.cfg b))

/-- DOMFREQ: the bin of greatest magnitude on RES and the spectrum on SPEC; OperandError for fewer than 2 sample
frames or 0 channels (R108, R109, R112, R114). -/
def execDomfreq (s : State) : Host.Outcome State Fault Refusal :=
  runCommand .domfreq true s
    (if domfreqOperandOk s.ports.samp then
      (s.outRes (.frequency (domfreq s.params s.cfg.fs (mono s.ports.samp)))).outSpec
        (spectrum s.params s.cfg.fs (mono s.ports.samp))
    else s.refuseOperand (encode .domfreq))

/-- CLASSIFY: ZERO, ONE or None on RES, a function of the operand and CFG alone (R120 to R124). -/
def execClassify (s : State) : Host.Outcome State Fault Refusal :=
  runCommand .classify true s (s.outRes (.classified (classify s.cfg s.ports.freq)))

end Sys2Proof.Machine
end

