-- ==== Sys2Proof/Machine/Transmit.lean ====
section
/-! DEFINITION. The Transmit Pipeline: MODULATE, ENCODE (43_transmit_pipeline.md). Neither changes any state. -/

namespace Sys2Proof.Machine

/-- MODULATE: the tones of the bit sequence operand, concatenated in bit order (R165, R166). -/
def execModulate (s : State) : Host.Outcome State Fault Refusal :=
  runCommand .modulate true s (s.outWave (toneBits s.params s.cfg s.ports.bits))

/-- ENCODE: the tones of the frame of the payload operand (R167, R168). -/
def execEncode (s : State) : Host.Outcome State Fault Refusal :=
  runCommand .encode true s (s.outWave (toneBits s.params s.cfg (frameBits s.ports.bytes)))

end Sys2Proof.Machine
end

