-- ==== Sys2Proof/Machine/Dispatch.lean ====
section
/-! DEFINITION. One arm per command. -/

namespace Sys2Proof.Machine

def exec (i : Instr) (s : State) : Host.Outcome State Fault Refusal :=
  match i with
  | .cfgload => Sys2Proof.Machine.execCfgload s
  | .tone b => Sys2Proof.Machine.execTone b s
  | .domfreq => Sys2Proof.Machine.execDomfreq s
  | .classify => Sys2Proof.Machine.execClassify s
  | .frame => Sys2Proof.Machine.execFrame s
  | .deframe => Sys2Proof.Machine.execDeframe s
  | .calibrate => Sys2Proof.Machine.execCalibrate s
  | .modulate => Sys2Proof.Machine.execModulate s
  | .encode => Sys2Proof.Machine.execEncode s
  | .feed => Sys2Proof.Machine.execFeed s
  | .scan => Sys2Proof.Machine.execScan s
  | .rxstart => Sys2Proof.Machine.execRxstart s
  | .rxchunk => Sys2Proof.Machine.execRxchunk s
  | .rxstop => Sys2Proof.Machine.execRxstop s

end Sys2Proof.Machine
end

