-- ==== Sys2Proof/Machine/Fetch.lean ====
section
/-! DEFINITION. What a step does around a command: the sample frames that arrive, taking the next command the host
issued (20_memory.md R60), going on with a command that waits for its capture (44_receive_pipeline.md R194), and the
passing of time outside the core (logs 11 to 14, 17, 18). -/

namespace Sys2Proof.Machine

/-- The beginning of a step: the arriving sample frames join the capture collaborator's buffer and a loss raises its
overflow flag (R38), and the result ports carry nothing yet (R50; log 18). -/
def State.beginStep (s : State) : State :=
  { s with
    mic := ⟨s.mic.frames ++ s.now.arriving, s.mic.ovf || s.now.lost⟩
    res := none, wave := none, spec := none, calls := [] }

/-- An illegal command word leaves the queue; no operand is taken with it (R84). -/
def State.dropCommand (s : State) (rest : List Command) : State := { s with cmd := rest }

/-- The levels stay as they are when nothing more is listed, and nothing more arrives (log 12). -/
def World.settle (w : World) : World := { w with arriving := [], lost := false }

/-- The end of a step: the outside moves on to what it presents next (log 12). -/
def State.endStep (s : State) : State :=
  match s.later with
  | [] => { s with now := s.now.settle }
  | w :: ws => { s with now := w, later := ws }

/-- Take the command `c`: it leaves the queue and its operands stand at the operand ports (R60, R81). -/
def State.takeCommand (s : State) (c : Command) (rest : List Command) : State :=
  { s with cmd := rest, ports := c.operands }

/-- Go on with a command that waits: try the blocking read again; ABORT is not looked at (R194, R218). -/
def State.resume (s : State) (b : Busy) : State :=
  match b with
  | .rxchunk => rxRead s
  | .calibrate count minFreq => calibrateRead count minFreq s

/-- What the core is to do in this step. -/
inductive Doing where
  /-- RESET is asserted: no command is taken (R216). -/
  | inReset
  /-- A command waits for its capture; the next is not taken (R60, R194). -/
  | waiting (b : Busy)
  /-- The host has issued nothing (R270; log 17). -/
  | idle
  /-- An illegal command word is taken (R84). -/
  | illegal (c : Command) (rest : List Command)
  /-- A command is taken (R60). -/
  | running (i : Instr) (c : Command) (rest : List Command)

/-- Which of these it is: RESET first, then a command in progress, then the next command the host issued. -/
def State.doing (s : State) : Doing :=
  if s.now.reset then .inReset
  else
    match s.busy with
    | some b => .waiting b
    | none =>
      match s.cmd with
      | [] => .idle
      | c :: rest =>
        match decode c.word with
        | .error _ => .illegal c rest
        | .ok i => .running i c rest

/-- The state in which the core stands ready to run the word `w` next: not in reset, no command in progress, `w` at
the head of the command queue, with the operands of the command it replaces or else those at the ports (log 21). -/
def State.withNextWord (s : State) (w : Byte) : State :=
  { s with
    busy := none
    now := { s.now with reset := false }
    cmd :=
      match s.cmd with
      | [] => [⟨w, s.ports⟩]
      | c :: rest => { c with word := w } :: rest }

end Sys2Proof.Machine
end

