-- ==== Sys2Proof/Machine/Step.lean ====
section
/-! DEFINITION. One step: RESET, or the command in progress, or the next command, or nothing (45_control.md R216;
20_memory.md R60; 44_receive_pipeline.md R194; 70_reset_and_hazards.md R270). -/

namespace Sys2Proof.Machine

/-- The end of a step, on its outcome. -/
def finish : Host.Outcome State Fault Refusal → Host.Outcome State Fault Refusal
  | .next t => .next t.endStep
  | .fault r => .fault r
  | .refused r => .refused r

/-- One step of the core. -/
def step (s : State) : Host.Outcome State Fault Refusal :=
  finish
    (match s.doing with
    | .inReset => .next s.beginStep.resetCore
    | .waiting b => .next (s.beginStep.resume b)
    | .idle => .next s.beginStep
    | .illegal c rest => .next ((s.beginStep.dropCommand rest).refuseCommand c.word)
    | .running i c rest => exec i (s.beginStep.takeCommand c rest))

/-- `s` with the command word whose bits are `w` where the step takes its next command (log 21). A number of more than
8 bits is no command word; its low 8 bits are taken. -/
def State.withFetchWord (s : State) (nbits w : Nat) : State :=
  s.withNextWord (BitVec.ofNat 8 (w % 2 ^ nbits))

end Sys2Proof.Machine
end

