-- ==== Sys2Proof/Safety.lean ====
section
/-! DEFINITION. The terms claims are stated in: the normal forms of BITBUF (10_state.md R28), the invariant of the
machine, and the ideal real arithmetic of 40_symbol_codec.md R100 and R110, which claims take as a named premise where
they need it (R115; 92_eei_decisions.md D6). No command reads anything of this file. -/

namespace Sys2Proof.Machine

/-- Form S: no START and at most 7 bits (R28). -/
def formS (buf : Bits) : Bool := find buf START 0 == none && decide (buf.length ≤ 7)

/-- Form F: START at index 0 and no END from index 8 (R28). -/
def formF (buf : Bits) : Bool := slice buf 0 8 == START && find buf END 8 == none

/-- BITBUF is in one of its two normal forms (R28). -/
def normalForm (buf : Bits) : Bool := formS buf || formF buf

/-- What holds in every state a run from reset reaches: the configuration is valid (R23), BITBUF is in normal form
(R28), a fatal error has stopped the receive loop and left no command in progress (R29, R236), and a command that
waits for its capture is one its state admits (R85, R194), a calibration with a positive sample count (R221). -/
structure State.Inv (s : State) : Prop where
  cfgValid : configValid s.cfg = true
  bufNormal : normalForm s.bitbuf = true
  fatalStopped : s.fatal = true → s.rxRun = false ∧ s.busy = none
  chunkRunning : s.busy = some .rxchunk → s.rxRun = true
  calibrateIdle : ∀ count minFreq, s.busy = some (.calibrate count minFreq) → s.rxRun = false ∧ 1 ≤ count

/-- Bin `k` is the one that is chosen among the bins of `bins` by `mag`: of greatest magnitude, and the least such
(R112, R157). -/
def LeastGreatest {α : Type} [LE α] [LT α] (mag : Nat → α) (bins : Nat → Prop) (k : Nat) : Prop :=
  bins k ∧ (∀ j, bins j → mag j ≤ mag k) ∧ ∀ j, bins j → j < k → mag j < mag k

/-- The conditions of R211, numbered 1 to 8 in the order listed there. -/
def ConfigCondition (c : ModemConfig) : Nat → Prop
  | 1 => 0 < c.fs
  | 2 => 0 < c.tbit
  | 3 => 0 < c.f0
  | 4 => 0 < c.f1
  | 5 => c.f0 ≠ c.f1
  | 6 => 0 ≤ c.tol
  | 7 => 0 ≤ c.amp ∧ c.amp ≤ 1
  | 8 => c.tol < |c.f0 - c.f1| / 2
  | _ => True

/-- The step takes the command `c` in state `s`: RESET is not asserted, no command is in progress, and `c` is the next
one the host issued (R60, R216). -/
def State.Takes (s : State) (c : Command) (rest : List Command) : Prop :=
  s.now.reset = false ∧ s.busy = none ∧ s.cmd = c :: rest

/-- The level of ABORT set to `b`, all else as in `s` (R218). -/
def State.setAbort (s : State) (b : Bool) : State := { s with now := { s.now with abort := b } }

/-- The real number `amp * sin(2π * turns)` of R100. -/
noncomputable def idealSine (amp turns : Rat) : ℝ := (amp : ℝ) * Real.sin (2 * Real.pi * (turns : ℝ))

/-- `hann(n, L) = 1/2 - (1/2) * cos(2πn / D)` (R110). -/
noncomputable def idealHann (d n : Nat) : ℝ := 1 / 2 - 1 / 2 * Real.cos (2 * Real.pi * (n : ℝ) / (d : ℝ))

/-- The real number a sample stands for, where `env` gives the numbers that come from outside (log 1). -/
noncomputable def sampleValue (env : Nat → ℝ) (v : Sample) : ℝ :=
  (v.num : ℝ) + (v.sines.map fun t => (t.2 : ℝ) * Real.sin (2 * Real.pi * (t.1 : ℝ))).sum
    + (v.inputs.map fun t => (t.2 : ℝ) * env t.1).sum

/-- `mag[k] = | Σ y[n] * exp(-2πi * k * n / L) |` with `y[n] = x[n] * hann(n, L)` (R108, R110). -/
noncomputable def idealMagnitude (env : Nat → ℝ) (p : Params) (x : List Sample) (k : Nat) : ℝ :=
  ‖∑ n ∈ Finset.range x.length,
    (sampleValue env (x.getD n Sample.zero) * idealHann (hannDenom p x.length) n : ℝ)
      * Complex.exp (-(2 * Real.pi * (k : ℝ) * (n : ℝ) / (x.length : ℝ) : ℝ) * Complex.I)‖

/-- The complex number a term of the sum of R108 stands for. -/
noncomputable def termValue (env : Nat → ℝ) (t : SpectrumTerm) : ℂ :=
  (sampleValue env t.sample * (1 / 2 - 1 / 2 * Real.cos (2 * Real.pi * ((t.window : Rat) : ℝ))) : ℝ)
    * Complex.exp (-(2 * Real.pi * ((t.phase : Rat) : ℝ) : ℝ) * Complex.I)

/-- The real number a magnitude stands for. -/
noncomputable def magnitudeValue (env : Nat → ℝ) : Magnitude → ℝ
  | .rational q => (q : ℝ)
  | .absSum terms => ‖(terms.map (termValue env)).sum‖

/-- On the mono chunk `x` the numerics `Magn` order the bins of the spectrum as ideal real arithmetic does (R10,
R110). -/
def MagnIdealOn (env : Nat → ℝ) (p : Params) (x : List Sample) : Prop :=
  ∀ j k, j ≤ x.length / 2 → k ≤ x.length / 2 →
    (magnKey p x j ≤ magnKey p x k ↔ idealMagnitude env p x j ≤ idealMagnitude env p x k)

/-- What a calibration does with the two bins `k1` and `k2` of greatest `mag` at or above `minFreq`, least bin first on
ties, of a capture of `m` samples, where `old` stood at RES before it: it delivers their rounded frequencies in order, or
fails with Degenerate where these are equal (R150, R154, R156, R157). -/
def PairOfGreatest {α : Type} [LE α] [LT α] (mag : Nat → α) (p : Params) (fs minFreq : Rat) (m : Nat)
    (old : Option Result) (es : List Event) (r : Option Result) : Prop :=
  ∀ k1 k2,
    LeastGreatest mag (fun k => k ≤ m / 2 ∧ minFreq ≤ (k : Rat) * fs / (m : Rat)) k1 →
    LeastGreatest mag (fun k => (k ≤ m / 2 ∧ minFreq ≤ (k : Rat) * fs / (m : Rat)) ∧ k ≠ k1) k2 →
    (roundQ p.roundTie ((k1 : Rat) * fs / (m : Rat)) = roundQ p.roundTie ((k2 : Rat) * fs / (m : Rat)) →
      r = old ∧ es = [.calibrationError .degenerate]) ∧
    (roundQ p.roundTie ((k1 : Rat) * fs / (m : Rat)) ≠ roundQ p.roundTie ((k2 : Rat) * fs / (m : Rat)) →
      es = [] ∧ r = some (.carriers
        (min (roundQ p.roundTie ((k1 : Rat) * fs / (m : Rat))) (roundQ p.roundTie ((k2 : Rat) * fs / (m : Rat))))
        (max (roundQ p.roundTie ((k1 : Rat) * fs / (m : Rat))) (roundQ p.roundTie ((k2 : Rat) * fs / (m : Rat))))))

/-- What a calibration makes of its mono capture `x` of `m` samples: the events it reports after a warning and what
stands at RES then. The two bins are those of greatest `magnKey` (log 3), which are those of greatest real magnitude
where `magnKey` orders the bins as ideal real arithmetic does; with no two bins at or above `minFreq` it fails with
TooFewBins (R150, R156). -/
def CalibrationYields (p : Params) (fs minFreq : Rat) (m : Nat) (x : List Sample) (old : Option Result)
    (es : List Event) (r : Option Result) : Prop :=
  PairOfGreatest (magnKey p x) p fs minFreq m old es r ∧
  (∀ env : Nat → ℝ, MagnIdealOn env p x → PairOfGreatest (idealMagnitude env p x) p fs minFreq m old es r) ∧
  ((∀ k1 k2, k1 ≤ m / 2 → k2 ≤ m / 2 → minFreq ≤ (k1 : Rat) * fs / (m : Rat) →
      minFreq ≤ (k2 : Rat) * fs / (m : Rat) → k1 = k2) →
    r = old ∧ es = [.calibrationError .tooFewBins])

end Sys2Proof.Machine
end

