-- ==== Sys2Proof/Certificates/Slice0/Obligations.lean ====
section
/-! DEFINITION. The statements about the model, each from a numbered rule of the spec. -/

open Sys2Proof Sys2Proof.Machine

/-! ### Reset, the command word, the step -/

/-- R36: the reset values the spec gives; of `fs` and `amp`, which it leaves open, only the bounds it sets. -/
def Obligations.ResetHasTheSpecValues : Prop :=
  0 < State.reset.cfg.fs ∧ State.reset.cfg.tbit = 1 / 10 ∧ State.reset.cfg.f0 = 18000 ∧ State.reset.cfg.f1 = 19000 ∧
    State.reset.cfg.tol = 300 ∧ 0 ≤ State.reset.cfg.amp ∧ State.reset.cfg.amp ≤ 1 ∧ State.reset.bitbuf = [] ∧
    scanState State.reset.bitbuf = .scanning ∧ State.reset.rxRun = false ∧ State.reset.fatal = false ∧
    State.reset.evt = [] ∧ configValid State.reset.cfg = true

/-- R216: while RESET is asserted no command is taken and every piece of state goes to its reset value, a command in
progress is abandoned with no result, a held capture is released; and nothing else clears FATAL. The model's own: that
commands issued before RESET stay in the queue (log 19), and that the capture a waiting CALIBRATE holds is released as
the loop's is (log 13). -/
def Obligations.ResetInputRestoresTheState : Prop :=
  (∀ s : State, s.now.reset = true →
    ∃ t, step s = .next t ∧ t.cfg = State.reset.cfg ∧ t.bitbuf = [] ∧ t.rxRun = false ∧ t.fatal = false ∧
      t.evt = [] ∧ t.busy = none ∧ t.res = none ∧ t.wave = none ∧ t.spec = none ∧ t.cmd = s.cmd ∧
      t.calls = if captureHeld s = true then [.captureClose] else []) ∧
  ∀ s t : State, step s = .next t → s.fatal = true → t.fatal = false → s.now.reset = true

/-- R83: the 15 legal words, written bit by bit, decode to the commands they stand for, and no other word decodes to
them. -/
def Obligations.DecoderReadsTheSpecWords : Prop :=
  decode 0b00010000#8 = .ok .cfgload ∧ decode 0b00100000#8 = .ok (.tone ZERO) ∧
    decode 0b00100001#8 = .ok (.tone ONE) ∧ decode 0b00110000#8 = .ok .domfreq ∧
    decode 0b01000000#8 = .ok .classify ∧ decode 0b01010000#8 = .ok .frame ∧ decode 0b01100000#8 = .ok .deframe ∧
    decode 0b01110000#8 = .ok .calibrate ∧ decode 0b10000000#8 = .ok .modulate ∧ decode 0b10010000#8 = .ok .encode ∧
    decode 0b10100000#8 = .ok .feed ∧ decode 0b10110000#8 = .ok .scan ∧ decode 0b11000000#8 = .ok .rxstart ∧
    decode 0b11010000#8 = .ok .rxchunk ∧ decode 0b11100000#8 = .ok .rxstop ∧
    ∀ (w : Byte) (i : Instr), decode w = .ok i ↔ encode i = w

/-- R84: a word is illegal exactly when its opcode is 0x0 or 0xF or an argument bit that must be 0 is 1; the step that
takes an illegal word reports CommandError with it, changes no other state of the core, and is not fatal. -/
def Obligations.IllegalWordIsRefused : Prop :=
  (∀ w : Byte, (∃ e, decode w = .error e) ↔
    (w.extractLsb' 4 4 = 0x0#4 ∨ w.extractLsb' 4 4 = 0xF#4 ∨ w.extractLsb' 1 3 ≠ 0#3 ∨
      (w.extractLsb' 4 4 ≠ 0x2#4 ∧ w.getLsbD 0 = true))) ∧
  ∀ (s : State) (c : Command) (rest : List Command) (e : IllegalWord), s.Takes c rest → decode c.word = .error e →
    step s = .next ({ s.beginStep with cmd := rest, evt := s.evt ++ [.commandError c.word] } : State).endStep

/-- The step runs the decoded command: with `c` at the head of the queue and its word decoding to `i`, the step is
`exec i` on the state in which arrivals have joined the capture buffer and `c`'s operands stand at the ports, followed
by the passing of time outside (R60, R81; the queue, the ports and the arrivals are the model's choice, logs 11 and 12);
`withFetchWord` of `i`'s word makes `i` the command the next step runs (the model's choice, log 21). -/
def Obligations.StepRunsTheDecodedCommand : Prop :=
  (∀ (s : State) (c : Command) (rest : List Command) (i : Instr), s.Takes c rest → decode c.word = .ok i →
    step s = finish (exec i (s.beginStep.takeCommand c rest))) ∧
  ∀ (s : State) (i : Instr), ∃ (c : Command) (rest : List Command),
    (s.withFetchWord 8 (encode i).toNat).Takes c rest ∧ c.word = encode i ∧ decode c.word = .ok i

/-- No step stops the machine: every command in every state has a next state, since an error is an event (R230, R234)
and a command that blocks in its read has a step that waits (the model's choice, log 13; R194 gives RXCHUNK a step only
when a chunk is supplied). With nothing issued a step leaves the core idle, and arrivals and the passing of time outside
are all that moves (the model's choice, logs 17 and 12; R270 says it of the core after reset only). -/
def Obligations.EveryStepHasANextState : Prop :=
  (∀ s : State, ∃ t, step s = .next t) ∧
    ∀ s : State, s.now.reset = false → s.busy = none → s.cmd = [] → step s = .next s.beginStep.endStep

/-! ### Errors -/

/-- R237: while FATAL is 1 the step that takes a command word, legal or not, reports CommandError and changes no state
of the core but EVT; no step but one in RESET clears FATAL. -/
def Obligations.FatalRefusesEveryWord : Prop :=
  (∀ (s : State) (c : Command) (rest : List Command), s.Takes c rest → s.fatal = true →
    ∃ t, step s = .next t ∧ t.evt = s.evt ++ [.commandError c.word] ∧ t.cfg = s.cfg ∧ t.bitbuf = s.bitbuf ∧
      t.rxRun = s.rxRun ∧ t.fatal = true ∧ t.busy = none ∧ t.res = none ∧ t.wave = none ∧ t.spec = none ∧
      t.calls = [] ∧ t.post = s.post ∧ t.params = s.params ∧ t.cmd = rest) ∧
  ∀ s t : State, step s = .next t → s.fatal = true → s.now.reset = false → t.fatal = true

/-- R85: a command in a state that does not admit it is refused with CommandError and nothing else changes. -/
def Obligations.CommandInTheWrongStateIsRefused : Prop :=
  ∀ (i : Instr) (s : State),
    (s.fatal = true ∨ ((i = .rxchunk ∨ i = .rxstop) ∧ s.rxRun = false) ∨
      ((i = .rxstart ∨ i = .calibrate ∨ i = .cfgload) ∧ s.rxRun = true)) →
    exec i s = .next { s with evt := s.evt ++ [.commandError (encode i)] }

/-- R236: a fatal error reports, releases the capture and leaves the loop with an empty buffer if the loop runs, and
sets FATAL; and no command raises one while the loop runs. -/
def Obligations.FatalErrorReleasesAndSticks : Prop :=
  (∀ (s : State) (e : Event), s.rxRun = true → s.fatalError e =
    { s with evt := s.evt ++ [e], calls := s.calls ++ [.captureClose], rxRun := false, bitbuf := [], fatal := true }) ∧
  (∀ (s : State) (e : Event), s.rxRun = false → s.fatalError e = { s with evt := s.evt ++ [e], fatal := true }) ∧
  ∀ (i : Instr) (s t : State), s.rxRun = true → s.fatal = false → exec i s = .next t → t.fatal = false

/-- R231: the codes of the events, and which are fatal. -/
def Obligations.EventCodesAreTheTable : Prop :=
  (∀ p, (Event.frameOk p).code = 0x00#8) ∧ (∀ n, (Event.configError n).code = 0x01#8) ∧
    Event.resourceError.code = 0x02#8 ∧ Event.captureOverflow.code = 0x10#8 ∧ Event.captureUnderflow.code = 0x11#8 ∧
    (∀ n, (Event.unalignedBody n).code = 0x20#8) ∧ Event.emptyBody.code = 0x21#8 ∧
    (∀ a b, (Event.checksumMismatch a b).code = 0x22#8) ∧ Event.confidentialityError.code = 0x23#8 ∧
    (∀ c, (Event.calibrationError c).code = 0x30#8) ∧ CalCause.tooFewBins.number = 0 ∧
    CalCause.degenerate.number = 1 ∧ (∀ w, (Event.commandError w).code = 0x40#8) ∧
    (∀ w, (Event.operandError w).code = 0x41#8) ∧ Event.interrupted.code = 0x50#8 ∧
    ∀ e : Event, e.isFatal = true ↔ (e.code = 0x01#8 ∨ e.code = 0x02#8)

/-! ### Configuration -/

/-- R210: CFGLOAD writes the six registers, all or none; ConfigError is fatal; CommandError while RX_RUN is 1. -/
def Obligations.CfgloadWritesAllOrNone : Prop :=
  ∀ s : State, s.fatal = false →
    (s.rxRun = false → configValid s.ports.cfgin = true → exec .cfgload s = .next { s with cfg := s.ports.cfgin }) ∧
    (s.rxRun = false → configValid s.ports.cfgin = false → ∃ which, firstFailing s.ports.cfgin = some which ∧
      exec .cfgload s = .next { s with evt := s.evt ++ [.configError which], fatal := true }) ∧
    (s.rxRun = true → exec .cfgload s = .next { s with evt := s.evt ++ [.commandError 0x10#8] })

/-- R211: a record is valid exactly when the eight conditions hold; `which` is the first failing one in the order
listed; the old values stay, FATAL is set, and every command after it is refused. -/
def Obligations.ConfigErrorNamesTheFirstFailingCondition : Prop :=
  (∀ c : ModemConfig, configValid c = true ↔
    (0 < c.fs ∧ 0 < c.tbit ∧ 0 < c.f0 ∧ 0 < c.f1 ∧ c.f0 ≠ c.f1 ∧ 0 ≤ c.tol ∧ (0 ≤ c.amp ∧ c.amp ≤ 1) ∧
      c.tol < |c.f0 - c.f1| / 2)) ∧
  (∀ (c : ModemConfig) (n : Nat), firstFailing c = some n ↔
    (1 ≤ n ∧ n ≤ 8 ∧ ¬ ConfigCondition c n ∧ ∀ m, 1 ≤ m → m < n → ConfigCondition c m)) ∧
  ∀ (s : State) (n : Nat), s.fatal = false → s.rxRun = false → firstFailing s.ports.cfgin = some n →
    ∃ t, exec .cfgload s = .next t ∧ t = { s with evt := s.evt ++ [.configError n], fatal := true } ∧
      ∀ i, exec i t = .next { t with evt := t.evt ++ [.commandError (encode i)] }

/-- R24: CFG changes only by a CFGLOAD that is taken while RX_RUN is 0 and whose record is valid, or by reset. -/
def Obligations.CfgChangesOnlyByCfgloadOrReset : Prop :=
  ∀ s t : State, step s = .next t → t.cfg ≠ s.cfg →
    s.now.reset = true ∨ ∃ c rest, s.Takes c rest ∧ decode c.word = .ok .cfgload ∧ s.fatal = false ∧
      s.rxRun = false ∧ configValid c.operands.cfgin = true ∧ t.cfg = c.operands.cfgin

/-! ### Arithmetic -/

/-- R15, R22: `round` is within 1/2, and is the nearest integer whenever there is one; NSYM is `round(fs * tbit)`. -/
def Obligations.RoundIsNearest : Prop :=
  (∀ (m : RoundTie) (x : Rat), |((roundQ m x : Int) : Rat) - x| ≤ 1 / 2) ∧
  (∀ (m : RoundTie) (x : Rat) (n : Int), |(n : Rat) - x| < 1 / 2 → roundQ m x = n) ∧
  ∀ (p : Params) (c : ModemConfig), 0 < c.fs → 0 < c.tbit → ((nsym p c : Nat) : Int) = roundQ p.roundTie (c.fs * c.tbit)

/-- R13: `bits` and `byteOf` are given by the bit numbers, and are inverse to each other. -/
def Obligations.BitsAndByteOfAreInverse : Prop :=
  (∀ (w : Byte) (i : Nat), i < 8 → (bits w)[i]? = some (w.getLsbD (7 - i))) ∧
  (∀ s : Bits, s.length = 8 →
    (byteOf s).toNat = ∑ i ∈ Finset.range 8, (s.getD i false).toNat * 2 ^ (7 - i)) ∧
  (∀ w : Byte, (bits w).length = 8 ∧ byteOf (bits w) = w) ∧ ∀ s : Bits, s.length = 8 → bits (byteOf s) = s

/-- R12: `find` gives the leftmost occurrence at or after the start, and none when there is none. -/
def Obligations.FindIsTheLeftmostOccurrence : Prop :=
  ∀ (s pat : Bits) (start : Nat),
    (∀ i, find s pat start = some i ↔
      (start ≤ i ∧ i + pat.length ≤ s.length ∧ slice s i (i + pat.length) = pat ∧
        ∀ j, start ≤ j → j < i → ¬ slice s j (j + pat.length) = pat)) ∧
    (find s pat start = none ↔
      ∀ i, start ≤ i → i + pat.length ≤ s.length → ¬ slice s i (i + pat.length) = pat)

/-- R131: the checksum is the column parity of the payload, whatever the order, and a payload followed by it folds to
0x00. -/
def Obligations.ChecksumIsColumnParity : Prop :=
  (∀ (p : Bytes) (j : Nat), (xorfold p).getLsbD j = ((p.map fun b => (b.getLsbD j).toNat).sum % 2 == 1)) ∧
  (∀ p q : Bytes, p.Perm q → xorfold p = xorfold q) ∧ ∀ p : Bytes, xorfold (p ++ [xorfold p]) = 0x00#8

/-- R66: the mono reduction gives one sample a frame, which stands for the mean of the real numbers its channel values
stand for, and leaves a one-channel chunk unchanged. -/
def Obligations.MonoIsTheChannelMean : Prop :=
  (∀ (env : Nat → ℝ) (chunk : Chunk) (n : Nat) (f : SampleFrame), chunk[n]? = some f → 1 ≤ f.length →
    ∃ m, (mono chunk)[n]? = some m ∧ sampleValue env m * (f.length : ℝ) = (f.map (sampleValue env)).sum) ∧
  (∀ c : Chunk, (mono c).length = c.length) ∧ ∀ x : List Sample, mono (x.map fun v : Sample => ([v] : SampleFrame)) = x

/-! ### Symbol Codec -/

/-- R100: TONE b delivers the NSYM samples `Quant(amp * sin(2π f n / fs))` of the bit's carrier with CFG.fs, and
changes nothing else. -/
def Obligations.ToneDeliversTheSymbol : Prop :=
  ∀ (s : State) (b : Bit), s.fatal = false →
    ∃ w : List Sample, exec (.tone b) s = .next { s with wave := some ⟨w, s.cfg.fs⟩ } ∧
      w.length = nsym s.params s.cfg ∧
      ∀ n, n < nsym s.params s.cfg → w[n]? =
        some (quantSine s.params s.cfg.amp ((if b = ONE then s.cfg.f1 else s.cfg.f0) * (n : Rat) / s.cfg.fs))

/-- R100, R103, R108, R110, R222 (the forms are the model's, logs 1 to 3). Samples: the reduced arguments of a sample
denote the real number `amp * sin(2π * turns)`, which is the sample itself where SampleDom is the ideal one, and then it
lies between `-amp` and `amp`; samples have period 1 in `turns`; with amplitude 0 every sample is the sample of 0.
Magnitudes: where Magn is ideal real arithmetic, a magnitude is the real number `mag[k]`; where it is not, a magnitude is
the rational it is compared by; in both it is at least 0, and 0 for silence. -/
def Obligations.NumericArgumentsDenoteTheSpecReals : Prop :=
  (∀ amp turns : Rat, idealSine (sineArgs amp turns).1 (sineArgs amp turns).2 = idealSine amp turns) ∧
  (∀ (env : Nat → ℝ) (p : Params) (amp turns : Rat), p.sampleDom = .ideal →
    sampleValue env (quantSine p amp turns) = idealSine amp turns ∧
      (0 ≤ amp → |sampleValue env (quantSine p amp turns)| ≤ amp)) ∧
  (∀ (p : Params) (amp turns : Rat) (k : Int), quantSine p amp (turns + k) = quantSine p amp turns) ∧
  (∀ (p : Params) (c : ModemConfig) (b : Bit) (v : Sample), c.amp = 0 → v ∈ tone p c b → v = quantSine p 0 0) ∧
  (∀ (env : Nat → ℝ) (p : Params) (x : List Sample) (k : Nat), p.magnDom = .ideal →
    magnitudeValue env (magnitude p x k) = idealMagnitude env p x k) ∧
  (∀ (p : Params) (x : List Sample) (k : Nat), p.magnDom = .rational →
    magnitude p x k = .rational (magnKey p x k)) ∧
  ∀ (env : Nat → ℝ) (p : Params) (x : List Sample) (k : Nat),
    0 ≤ magnKey p x k ∧ 0 ≤ magnitudeValue env (magnitude p x k) ∧
      ((∀ v ∈ x, v = Sample.zero) → magnKey p x k = 0 ∧ magnitudeValue env (magnitude p x k) = 0)

/-- R111, R112: DOMFREQ delivers `k * fs / L` for the least `k ≤ L/2` of greatest magnitude, a value between 0 and
`fs / 2`, with the snapshot on SPEC, and changes nothing else. Magnitudes are compared by `magnKey` (log 3), and where that orders
the bins as ideal real arithmetic does, `k` is the least bin of greatest real magnitude. -/
def Obligations.DomfreqDeliversTheLeastGreatestBin : Prop :=
  ∀ s : State, s.fatal = false → 0 < s.cfg.fs → 2 ≤ s.ports.samp.length → (∀ f ∈ s.ports.samp, 1 ≤ f.length) →
    ∃ k, LeastGreatest (magnKey s.params (mono s.ports.samp)) (fun j => j ≤ s.ports.samp.length / 2) k ∧
      (∀ env : Nat → ℝ, MagnIdealOn env s.params (mono s.ports.samp) →
        LeastGreatest (idealMagnitude env s.params (mono s.ports.samp)) (fun j => j ≤ s.ports.samp.length / 2) k) ∧
      exec .domfreq s = .next { s with
        res := some (.frequency ((k : Rat) * s.cfg.fs / (s.ports.samp.length : Rat)))
        spec := some (spectrum s.params s.cfg.fs (mono s.ports.samp)) } ∧
      0 ≤ (k : Rat) * s.cfg.fs / (s.ports.samp.length : Rat) ∧
      (k : Rat) * s.cfg.fs / (s.ports.samp.length : Rat) ≤ s.cfg.fs / 2

/-- R109: DOMFREQ of fewer than 2 sample frames, or of frames without a channel, reports OperandError and delivers no
result. -/
def Obligations.DomfreqRefusesAShortChunk : Prop :=
  ∀ s : State, s.fatal = false → (s.ports.samp.length < 2 ∨ ∃ f ∈ s.ports.samp, f.length = 0) →
    exec .domfreq s = .next { s with evt := s.evt ++ [.operandError 0x30#8] }

/-- R113: an all-zero chunk gives 0 Hz, and a snapshot whose every magnitude is 0, in every numerics. -/
def Obligations.SilenceIsZeroHz : Prop :=
  ∀ s : State, s.fatal = false → 2 ≤ s.ports.samp.length →
    (∀ f ∈ s.ports.samp, 1 ≤ f.length ∧ ∀ v ∈ f, v = Sample.zero) →
    ∃ (t : State) (v : Spectrum), exec .domfreq s = .next t ∧ t.res = some (.frequency 0) ∧ t.spec = some v ∧
      v.magnitudes.length = s.ports.samp.length / 2 + 1 ∧
      ∀ (env : Nat → ℝ), ∀ μ ∈ v.magnitudes, magnitudeValue env μ = 0

/-- R113: where the numerics order the bins of the chunk as ideal real arithmetic does, a chunk whose mono samples all
stand for one real number gives 0 Hz. -/
def Obligations.ConstantChunkIsZeroHz : Prop :=
  ∀ (env : Nat → ℝ) (s : State) (r : ℝ), s.fatal = false → 2 ≤ s.ports.samp.length →
    (∀ f ∈ s.ports.samp, 1 ≤ f.length) → (∀ x ∈ mono s.ports.samp, sampleValue env x = r) →
    MagnIdealOn env s.params (mono s.ports.samp) →
    ∃ t, exec .domfreq s = .next t ∧ t.res = some (.frequency 0)

/-- R113: where the numerics order the bins of both chunks as ideal real arithmetic does, multiplying every sample by
the same non-zero real number leaves the result unchanged. -/
def Obligations.ScaleLeavesTheDominantFrequency : Prop :=
  ∀ (env : Nat → ℝ) (p : Params) (fs : Rat) (c d : Chunk) (a : ℝ), a ≠ 0 →
    List.Forall₂ (List.Forall₂ fun v w => sampleValue env w = a * sampleValue env v) c d →
    MagnIdealOn env p (mono c) → MagnIdealOn env p (mono d) →
    domfreq p fs (mono d) = domfreq p fs (mono c)

/-- R120: CLASSIFY gives ZERO in the closed window of f0, else ONE in that of f1, else None; nothing else changes. -/
def Obligations.ClassifyTestsTheClosedWindows : Prop :=
  ∀ s : State, s.fatal = false →
    (|s.ports.freq - s.cfg.f0| ≤ s.cfg.tol →
      exec .classify s = .next { s with res := some (.classified (some ZERO)) }) ∧
    (¬ |s.ports.freq - s.cfg.f0| ≤ s.cfg.tol → |s.ports.freq - s.cfg.f1| ≤ s.cfg.tol →
      exec .classify s = .next { s with res := some (.classified (some ONE)) }) ∧
    (¬ |s.ports.freq - s.cfg.f0| ≤ s.cfg.tol → ¬ |s.ports.freq - s.cfg.f1| ≤ s.cfg.tol →
      exec .classify s = .next { s with res := some (.classified none) })

/-- R121, R122: under a valid configuration the windows are disjoint, their ends belong to them, and `f0 + tol + 1` is
None exactly when it is also outside the ONE window. -/
def Obligations.ClassifyBoundaries : Prop :=
  ∀ c : ModemConfig, configValid c = true →
    (∀ f, ¬ (|f - c.f0| ≤ c.tol ∧ |f - c.f1| ≤ c.tol)) ∧
    classify c (c.f0 + c.tol) = some ZERO ∧ classify c (c.f0 - c.tol) = some ZERO ∧
    classify c (c.f1 + c.tol) = some ONE ∧ classify c (c.f1 - c.tol) = some ONE ∧
    (classify c (c.f0 + c.tol + 1) = none ↔ c.tol < |c.f0 + c.tol + 1 - c.f1|)

/-! ### Frame Codec -/

/-- R70, R130: FRAME delivers the `8(n+3)` bits START, payload, checksum, END at the indices of the table, and changes
nothing else. -/
def Obligations.FrameHasTheOnAirLayout : Prop :=
  ∀ s : State, s.fatal = false →
    ∃ F : Bits, exec .frame s = .next { s with res := some (.framed F) } ∧
      F.length = 8 * (s.ports.bytes.length + 3) ∧ slice F 0 8 = [true, true, true, true, true, true, true, false] ∧
      (∀ i, i < s.ports.bytes.length →
        slice F (8 + 8 * i) (16 + 8 * i) = bits (s.ports.bytes.getD i 0#8)) ∧
      slice F (8 * s.ports.bytes.length + 8) (8 * s.ports.bytes.length + 16) = bits (xorfold s.ports.bytes) ∧
      slice F (8 * s.ports.bytes.length + 16) (8 * s.ports.bytes.length + 24) =
        [false, true, true, true, true, true, true, true]

/-- R135, R138: DEFRAME of a positive whole number of bytes delivers the payload, all bytes but the last, together
with checksumValid, valid or not, and changes nothing else. -/
def Obligations.DeframeDeliversPayloadAndFlag : Prop :=
  ∀ (s : State) (m : Nat), s.fatal = false → s.ports.bits.length = 8 * (m + 1) →
    ∃ (payload : Bytes) (valid : Bool),
      exec .deframe s = .next { s with res := some (.deframed payload valid) } ∧ payload.length = m ∧
      (∀ i, i < m → payload[i]? = some (byteOf (slice s.ports.bits (8 * i) (8 * i + 8)))) ∧
      (valid = true ↔ xorfold payload = byteOf (slice s.ports.bits (8 * m) (8 * m + 8)))

/-- R136, R137: DEFRAME refuses an unaligned operand with its length and an empty one, and delivers no result. -/
def Obligations.DeframeRefusesUnalignedAndEmpty : Prop :=
  ∀ s : State, s.fatal = false →
    (s.ports.bits.length % 8 ≠ 0 →
      exec .deframe s = .next { s with evt := s.evt ++ [.unalignedBody s.ports.bits.length] }) ∧
    (s.ports.bits = [] → exec .deframe s = .next { s with evt := s.evt ++ [.emptyBody] })

/-- R140: the body of a frame deframes to the payload with a valid checksum, for every payload. -/
def Obligations.DeframeUndoesFrame : Prop :=
  ∀ (s : State) (p : Bytes) (F : Bits), s.fatal = false →
    exec .frame { s with ports := { s.ports with bytes := p } } =
      .next { s with ports := { s.ports with bytes := p }, res := some (.framed F) } →
    exec .deframe { s with ports := { s.ports with bits := slice F 8 (F.length - 8) } } =
      .next { s with
        ports := { s.ports with bits := slice F 8 (F.length - 8) }
        res := some (.deframed p true) }

/-- R141: one flip anywhere in the body of a frame gives checksumValid false; two flips give false unless they fall on
the same bit position of two bytes, and then true with a wrong payload. -/
def Obligations.ChecksumSeesSingleFlips : Prop :=
  ∀ (s : State) (p : Bytes) (B : Bits), s.fatal = false → B = bitsOf p ++ bits (xorfold p) →
    (∀ i, i < B.length → s.ports.bits = B.modify i (!·) →
      ∃ q, exec .deframe s = .next { s with res := some (.deframed q false) }) ∧
    ∀ i j, i < B.length → j < B.length → i ≠ j → s.ports.bits = (B.modify i (!·)).modify j (!·) →
      ∃ q, exec .deframe s = .next { s with res := some (.deframed q (i % 8 == j % 8)) } ∧ (i % 8 = j % 8 → q ≠ p)

/-! ### Transmit Pipeline -/

/-- R165: sample `j` of MODULATE's waveform is sample `j mod NSYM` of the tone of bit `j / NSYM`; nothing else
changes. The tone of a bit is what TONE delivers. -/
def Obligations.ModulateConcatenatesTones : Prop :=
  ∀ s : State, s.fatal = false →
    ∃ w : List Sample, exec .modulate s = .next { s with wave := some ⟨w, s.cfg.fs⟩ } ∧
      w.length = s.ports.bits.length * nsym s.params s.cfg ∧
      ∀ j, j < s.ports.bits.length * nsym s.params s.cfg →
        ∀ v t, exec (.tone (s.ports.bits.getD (j / nsym s.params s.cfg) false)) s = .next t → t.wave = some v →
          w[j]? = v.samples[j % nsym s.params s.cfg]?

/-- R167, R168: ENCODE delivers exactly what FRAME followed by MODULATE of its result delivers, `8(n+3) * NSYM`
samples, empty only when NSYM is 0; nothing else changes. -/
def Obligations.EncodeIsFrameThenModulate : Prop :=
  ∀ s : State, s.fatal = false →
    ∃ (F : Bits) (w : List Sample),
      exec .frame s = .next { s with res := some (.framed F) } ∧
      exec .modulate { s with ports := { s.ports with bits := F } } =
        .next { s with ports := { s.ports with bits := F }, wave := some ⟨w, s.cfg.fs⟩ } ∧
      exec .encode s = .next { s with wave := some ⟨w, s.cfg.fs⟩ } ∧
      w.length = 8 * (s.ports.bytes.length + 3) * nsym s.params s.cfg ∧ (w = [] ↔ nsym s.params s.cfg = 0)

/-! ### Calibrator -/

/-- R151, R152, R153, R160: CALIBRATE refuses a bad operand before the capture is opened, a capture that cannot be
opened is fatal, and too few delivered frames leave it waiting; CFG and BITBUF stay. -/
def Obligations.CalibrateRefusesFailsOrWaits : Prop :=
  ∀ s : State, s.fatal = false → s.rxRun = false →
    ((s.ports.calin.windowSeconds ≤ 0 ∨ s.ports.calin.minFreq < 0 ∨
        sampleCount s.params (s.cfg.fs * s.ports.calin.windowSeconds) = none) →
      exec .calibrate s = .next { s with evt := s.evt ++ [.operandError 0x70#8] }) ∧
    (∀ m, 0 < s.ports.calin.windowSeconds → 0 ≤ s.ports.calin.minFreq →
      sampleCount s.params (s.cfg.fs * s.ports.calin.windowSeconds) = some m →
      (s.now.canOpen = false → exec .calibrate s = .next { s with
        calls := s.calls ++ [.captureOpen false], evt := s.evt ++ [.resourceError], fatal := true }) ∧
      (s.now.canOpen = true → s.mic.frames.length < m → exec .calibrate s = .next { s with
        calls := s.calls ++ [.captureOpen true], busy := some (.calibrate m s.ports.calin.minFreq) }))

/-- R157, R154, R156: with its capture delivered, CALIBRATE opens, reads and closes the capture, warns of an overflow,
and delivers the rounded, ordered frequencies of the two bins of greatest magnitude at or above `minFreq`, least bin
first on ties; it fails with Degenerate when they round alike and with TooFewBins when there are no two bins. Nothing
else changes. Magnitudes are compared by `magnKey` (the model's choice, log 3), and where that orders the bins of the
capture as ideal real arithmetic does, the two bins are those of greatest real magnitude. A CALIBRATE that had to wait for its capture goes on waiting while too few sample frames are delivered and
then does the same with what it was given when it started (R150, R153, R297; the waiting state is the model's, log 13). -/
def Obligations.CalibrateDeliversTheTwoGreatestBins : Prop :=
  (∀ (s : State) (m : Nat), s.fatal = false → s.rxRun = false → 0 < s.ports.calin.windowSeconds →
    0 ≤ s.ports.calin.minFreq → sampleCount s.params (s.cfg.fs * s.ports.calin.windowSeconds) = some m →
    s.now.canOpen = true → m ≤ s.mic.frames.length →
    ∃ (es : List Event) (r : Option Result),
      exec .calibrate s = .next { s with
        calls := s.calls ++ [.captureOpen true, .captureRead m, .captureClose]
        mic := ⟨s.mic.frames.drop m, false⟩
        busy := none
        evt := s.evt ++ (if s.mic.ovf = true then [.captureOverflow] else []) ++ es
        res := r } ∧
      CalibrationYields s.params s.cfg.fs s.ports.calin.minFreq m (mono (s.mic.frames.take m)) s.res es r) ∧
  ∀ (s : State) (m : Nat) (minFreq : Rat), s.now.reset = false → s.busy = some (.calibrate m minFreq) →
    ((s.mic.frames ++ s.now.arriving).length < m → step s = .next s.beginStep.endStep) ∧
    (m ≤ (s.mic.frames ++ s.now.arriving).length →
      ∃ (es : List Event) (r : Option Result),
        step s = .next ({ s.beginStep with
          calls := [.captureRead m, .captureClose]
          mic := ⟨(s.mic.frames ++ s.now.arriving).drop m, false⟩
          busy := none
          evt := s.evt ++ (if (s.mic.ovf || s.now.lost) = true then [.captureOverflow] else []) ++ es
          res := r } : State).endStep ∧
        CalibrationYields s.params s.cfg.fs minFreq m (mono ((s.mic.frames ++ s.now.arriving).take m)) none es r)

/-- R158: every pair the core delivers is ordered, and its values are nearest integers of two bins of the capture of `m`
sample frames that the step read, both at or above `minFreq`, where `m` and `minFreq` are those of the CALIBRATE the step
took or went on with (the queue, the waiting state and the noted calls are the model's, logs 11, 13 and 18). -/
def Obligations.CarrierPairIsOrdered : Prop :=
  ∀ (s t : State) (low high : Int), step s = .next t → t.res = some (.carriers low high) →
    low < high ∧ ∃ (m : Nat) (minFreq : Rat),
      (s.busy = some (.calibrate m minFreq) ∨
        ∃ c rest, s.Takes c rest ∧ decode c.word = .ok .calibrate ∧ minFreq = c.operands.calin.minFreq ∧
          calibrateCount s.params s.cfg.fs c.operands.calin = some m) ∧
      Call.captureRead m ∈ t.calls ∧
      ∃ k1 k2 : Nat, k1 ≤ m / 2 ∧ k2 ≤ m / 2 ∧ k1 ≠ k2 ∧
        minFreq ≤ (k1 : Rat) * s.cfg.fs / (m : Rat) ∧ minFreq ≤ (k2 : Rat) * s.cfg.fs / (m : Rat) ∧
        |(low : Rat) - (k1 : Rat) * s.cfg.fs / (m : Rat)| ≤ 1 / 2 ∧
        |(high : Rat) - (k2 : Rat) * s.cfg.fs / (m : Rat)| ≤ 1 / 2

/-! ### Frame Scanner -/

/-- R176, R177, R178: SCAN makes one scanner call: its result and what stays in BITBUF in the three cases; no event,
and nothing else changes. -/
def Obligations.ScanMakesOneCall : Prop :=
  ∀ s : State, s.fatal = false →
    (find s.bitbuf START 0 = none → exec .scan s = .next { s with
      bitbuf := s.bitbuf.drop (s.bitbuf.length - 7), res := some (.scanned none) }) ∧
    (∀ a, find s.bitbuf START 0 = some a → find s.bitbuf END (a + 8) = none → exec .scan s = .next { s with
      bitbuf := s.bitbuf.drop a, res := some (.scanned none) }) ∧
    ∀ a e, find s.bitbuf START 0 = some a → find s.bitbuf END (a + 8) = some e → exec .scan s = .next { s with
      bitbuf := s.bitbuf.drop (e + 8)
      res := some (.scanned (some (slice s.bitbuf (a + 8) e, s.bitbuf.drop (e + 8)))) }

/-- R179, R181: where a scanner call emits a body, the buffer was bits without an earlier START, START, the body, END,
the remainder; the body holds no END, nor does body and END before the body's end; so at least 16 bits left it. -/
def Obligations.ScannedBodyStandsBetweenTheMarkers : Prop :=
  ∀ (buf body rest : Bits), scan1 buf = (some body, rest) →
    ∃ junk : Bits, buf = junk ++ START ++ body ++ END ++ rest ∧ find buf START 0 = some junk.length ∧
      find body END 0 = none ∧ find (body ++ END) END 0 = some body.length ∧
      16 + body.length + rest.length ≤ buf.length

/-- R180, R181: FEED appends its operand and drains; draining is one scanner call, handling its body if it has one,
and draining what is left, however long the buffer is. -/
def Obligations.FeedDrainsToTheEnd : Prop :=
  (∀ s : State, s.fatal = false →
    exec .feed s = .next ({ s with bitbuf := s.bitbuf ++ s.ports.bits } : State).drain) ∧
  ∀ s : State,
    (∀ rest, scan1 s.bitbuf = (none, rest) → s.drain = { s with bitbuf := rest }) ∧
    ∀ body rest, scan1 s.bitbuf = (some body, rest) →
      s.drain = (({ s with bitbuf := rest } : State).handle body).drain

/-- R182, R183, R184: the checks on a frame, in order, and what each reports; `Post` is called with the payload only
when the checksum is valid, and BITBUF is never written. -/
def Obligations.HandleChecksInOrder : Prop :=
  ∀ (s : State) (body : Bits),
    (body.length % 8 ≠ 0 → s.handle body = { s with evt := s.evt ++ [.unalignedBody body.length] }) ∧
    (body = [] → s.handle body = { s with evt := s.evt ++ [.emptyBody] }) ∧
    ∀ (payload : Bytes) (rc : Byte), body = bitsOf payload ++ bits rc →
      (xorfold payload ≠ rc →
        s.handle body = { s with evt := s.evt ++ [.checksumMismatch rc (xorfold payload)] }) ∧
      (xorfold payload = rc → (s.post.headD .identity).apply payload = none →
        s.handle body = { s with
          post := s.post.tail, calls := s.calls ++ [.post payload], evt := s.evt ++ [.confidentialityError] }) ∧
      ∀ r, xorfold payload = rc → (s.post.headD .identity).apply payload = some r →
        s.handle body = { s with
          post := s.post.tail, calls := s.calls ++ [.post payload], evt := s.evt ++ [.frameOk r] }

/-- R28: every FEED leaves BITBUF in normal form, every RXCHUNK keeps it in normal form, a scanner call on a normal
form changes nothing and emits nothing, and the form tells SCAN_STATE. -/
def Obligations.BufferEndsInNormalForm : Prop :=
  (∀ s : State, s.fatal = false → ∃ t, exec .feed s = .next t ∧ normalForm t.bitbuf = true) ∧
  (∀ s t : State, normalForm s.bitbuf = true → exec .rxchunk s = .next t → normalForm t.bitbuf = true) ∧
  ∀ b : Bits, normalForm b = true →
    scan1 b = (none, b) ∧ (scanState b = .inFrame ↔ formF b = true) ∧ (scanState b = .scanning ↔ formS b = true)

/-- R187: FEED A followed by FEED B reports the same events in the same order, calls `Post` alike, and leaves the same
BITBUF as FEED of A ++ B, from every state and for every A and B. -/
def Obligations.SplittingAFeedDoesNotMatter : Prop :=
  ∀ (s t u : State) (a b : Bits), s.fatal = false →
    exec .feed { s with ports := { s.ports with bits := a } } = .next t →
    exec .feed { t with ports := { t.ports with bits := b } } = .next u →
    exec .feed { s with ports := { s.ports with bits := a ++ b } } =
      .next { u with ports := { s.ports with bits := a ++ b } }

/-- R188: as long as no START stands in the stream, FEED keeps at most 7 bits and reports nothing; while a frame is
open and no END arrives, BITBUF grows by every bit fed. -/
def Obligations.IdleBufferIsBounded : Prop :=
  ∀ s : State, s.fatal = false →
    (find (s.bitbuf ++ s.ports.bits) START 0 = none →
      ∃ t, exec .feed s = .next t ∧ t.bitbuf.length ≤ 7 ∧ t.evt = s.evt ∧
        t.bitbuf = (s.bitbuf ++ s.ports.bits).drop ((s.bitbuf ++ s.ports.bits).length - 7)) ∧
    (slice s.bitbuf 0 8 = START → find (s.bitbuf ++ s.ports.bits) END 8 = none →
      exec .feed s = .next { s with bitbuf := s.bitbuf ++ s.ports.bits })

/-- R189: fed one bit at a time from a buffer in normal form, a frame is emitted by the very bit that completes its
END, by no other, and the remainder is then empty. -/
def Obligations.OneBitFeedsEmitAtTheEndMarker : Prop :=
  ∀ (s : State) (b : Bit), s.fatal = false → normalForm s.bitbuf = true → s.ports.bits = [b] →
    (∀ body, s.bitbuf ++ [b] = START ++ body ++ END →
      exec .feed s = .next (({ s with bitbuf := [] } : State).handle body)) ∧
    ((¬ ∃ body, s.bitbuf ++ [b] = START ++ body ++ END) → ∃ t, exec .feed s = .next t ∧ t.evt = s.evt)

/-- The receiver reads what the transmitter frames (R130, R180, R283): where the body of the frame of `p` holds no END
before its end, FEED of FRAME's result from any buffer of form S leaves BITBUF empty and adds one event: FRAME_OK with
what `Post` makes of `p`, or ConfidentialityError where it fails. -/
def Obligations.FeedOfAFrameDeliversThePayload : Prop :=
  ∀ (s : State) (p : Bytes), s.fatal = false → formS s.bitbuf = true → s.ports.bits = frameBits p →
    find (bodyOf p ++ END) END 0 = some (bodyOf p).length →
    exec .feed s = .next { s with
      bitbuf := [], post := s.post.tail, calls := s.calls ++ [.post p]
      evt := s.evt ++ [match (s.post.headD .identity).apply p with
        | some r => .frameOk r
        | none => .confidentialityError] }

/-! ### Receive loop -/

/-- R190: RXSTART acquires the capture, empties BITBUF and sets RX_RUN; a capture that cannot be acquired is fatal. -/
def Obligations.RxstartEntersTheLoop : Prop :=
  ∀ s : State, s.fatal = false →
    (s.rxRun = false → s.now.canOpen = true → exec .rxstart s = .next { s with
      calls := s.calls ++ [.captureOpen true], bitbuf := [], rxRun := true }) ∧
    (s.rxRun = false → s.now.canOpen = false → exec .rxstart s = .next { s with
      calls := s.calls ++ [.captureOpen false], evt := s.evt ++ [.resourceError], fatal := true }) ∧
    (s.rxRun = true → exec .rxstart s = .next { s with evt := s.evt ++ [.commandError 0xC0#8] })

/-- R196: RXSTOP releases the capture, empties BITBUF and clears RX_RUN. -/
def Obligations.RxstopLeavesTheLoop : Prop :=
  ∀ s : State, s.fatal = false →
    (s.rxRun = true → exec .rxstop s = .next { s with
      calls := s.calls ++ [.captureClose], bitbuf := [], rxRun := false }) ∧
    (s.rxRun = false → exec .rxstop s = .next { s with evt := s.evt ++ [.commandError 0xE0#8] })

/-- R192, R193, R195: with a chunk delivered and ABORT not asserted, RXCHUNK consumes the chunk, warns of an overflow,
classifies its dominant frequency, and appends the bit and drains if there is one; a None chunk leaves BITBUF. The
dominant frequency is what DOMFREQ delivers for that chunk. -/
def Obligations.RxchunkProcessesOneChunk : Prop :=
  ∀ (s after : State), s.fatal = false → s.rxRun = true → s.now.abort = false →
    chunkLen s.params s.cfg ≤ s.mic.frames.length →
    after = { s with
      mic := ⟨s.mic.frames.drop (chunkLen s.params s.cfg), false⟩
      calls := s.calls ++ [.captureRead (chunkLen s.params s.cfg)]
      busy := none
      evt := s.evt ++ (if s.mic.ovf = true then [.captureOverflow] else [])
      spec := some (spectrum s.params s.cfg.fs (mono (s.mic.frames.take (chunkLen s.params s.cfg)))) } →
    (classify s.cfg (domfreq s.params s.cfg.fs (mono (s.mic.frames.take (chunkLen s.params s.cfg)))) = none →
      exec .rxchunk s = .next after) ∧
    (∀ b, classify s.cfg (domfreq s.params s.cfg.fs (mono (s.mic.frames.take (chunkLen s.params s.cfg)))) = some b →
      exec .rxchunk s = .next ({ after with bitbuf := after.bitbuf ++ [b] } : State).drain) ∧
    ∀ t f, domfreqOperandOk (s.mic.frames.take (chunkLen s.params s.cfg)) = true →
      exec .domfreq { s with ports := { s.ports with samp := s.mic.frames.take (chunkLen s.params s.cfg) } } = .next t →
      t.res = some (.frequency f) →
      f = domfreq s.params s.cfg.fs (mono (s.mic.frames.take (chunkLen s.params s.cfg)))

/-- R194, R218: while too few frames are delivered RXCHUNK waits with nothing changed; the steps that follow take no
command, look at no ABORT, and when the frames have come do with the chunk all that R192 says, as if there had been no
wait (the waiting state and the arrivals are the model's, logs 12 to 14). -/
def Obligations.RxchunkWaitsForItsChunk : Prop :=
  (∀ s : State, s.fatal = false → s.rxRun = true → s.now.abort = false →
    s.mic.frames.length < chunkLen s.params s.cfg → exec .rxchunk s = .next { s with busy := some .rxchunk }) ∧
  ∀ s : State, s.now.reset = false → s.busy = some .rxchunk →
    ((s.mic.frames ++ s.now.arriving).length < chunkLen s.params s.cfg → step s = .next s.beginStep.endStep) ∧
    ∀ (x : Chunk) (after : State), chunkLen s.params s.cfg ≤ (s.mic.frames ++ s.now.arriving).length →
      x = (s.mic.frames ++ s.now.arriving).take (chunkLen s.params s.cfg) →
      after = { s.beginStep with
        mic := ⟨(s.mic.frames ++ s.now.arriving).drop (chunkLen s.params s.cfg), false⟩
        calls := [.captureRead (chunkLen s.params s.cfg)]
        busy := none
        evt := s.evt ++ (if (s.mic.ovf || s.now.lost) = true then [.captureOverflow] else [])
        spec := some (spectrum s.params s.cfg.fs (mono x)) } →
      (classify s.cfg (domfreq s.params s.cfg.fs (mono x)) = none → step s = .next after.endStep) ∧
      ∀ b, classify s.cfg (domfreq s.params s.cfg.fs (mono x)) = some b →
        step s = .next ({ after with bitbuf := after.bitbuf ++ [b] } : State).drain.endStep

/-- R217: an ABORT asserted at the start of an RXCHUNK ends the loop cleanly: the capture released, BITBUF empty,
RX_RUN 0, Interrupted reported, no chunk read, FATAL as it was. -/
def Obligations.AbortLeavesTheLoopCleanly : Prop :=
  ∀ s : State, s.fatal = false → s.rxRun = true → s.now.abort = true → exec .rxchunk s = .next { s with
    calls := s.calls ++ [.captureClose], bitbuf := [], rxRun := false, evt := s.evt ++ [.interrupted] }

/-- R218: the level of ABORT makes no difference to any command but RXCHUNK, none while RX_RUN is 0, and none to a
read that waits. -/
def Obligations.AbortTouchesOnlyRxchunk : Prop :=
  (∀ (i : Instr) (s t : State) (b : Bool), (i ≠ .rxchunk ∨ s.rxRun = false) → exec i s = .next t →
    exec i (s.setAbort b) = .next (t.setAbort b)) ∧
  ∀ (s : State) (b : Bool) (w : Busy), (s.setAbort b).resume w = (s.resume w).setAbort b

/-! ### Whole-machine rules -/

/-- R29, R223, R236: RX_RUN goes from 0 to 1 only by an RXSTART whose capture opens, and from 1 to 0 only by reset,
RXSTOP, or an RXCHUNK that sees ABORT: not by a fatal error, since the commands that can raise one are refused while
RX_RUN is 1 (R236, R85). -/
def Obligations.RxRunChangesOnlyAsListed : Prop :=
  ∀ s t : State, step s = .next t →
    (s.rxRun = false → t.rxRun = true →
      ∃ c rest, s.Takes c rest ∧ decode c.word = .ok .rxstart ∧ s.fatal = false ∧ s.now.canOpen = true) ∧
    (s.rxRun = true → t.rxRun = false →
      s.now.reset = true ∨ ∃ c rest, s.Takes c rest ∧
        (decode c.word = .ok .rxstop ∨ (decode c.word = .ok .rxchunk ∧ s.now.abort = true)))

/-- R31: the core appends to EVT and never reads it; reset empties it. -/
def Obligations.EvtIsAppendedAndNeverRead : Prop :=
  (∀ s t : State, step s = .next t → s.now.reset = false → s.evt <+: t.evt) ∧
  (∀ (i : Instr) (s t : State) (es : List Event), exec i s = .next t →
    exec i { s with evt := es ++ s.evt } = .next { t with evt := es ++ t.evt }) ∧
  ∀ s t : State, step s = .next t → s.now.reset = true → t.evt = []

/-- R25, R224: BITBUF is written only by FEED, SCAN, RXSTART, RXCHUNK, RXSTOP and RESET; bits enter only at its end,
from FEED's operand or one from an RXCHUNK, and leave only from its front; while FATAL is 1 no command moves them. Said of
each command, and of each step: one in RESET, one that goes on with a waiting command, an idle one, one that takes an
illegal word, and one that runs a command. -/
def Obligations.BitsEnterAtTheEndAndLeaveAtTheFront : Prop :=
  (∀ (i : Instr) (s t : State), exec i s = .next t →
    (i ≠ .feed → i ≠ .scan → i ≠ .rxstart → i ≠ .rxchunk → i ≠ .rxstop → t.bitbuf = s.bitbuf) ∧
    (s.fatal = true → t.bitbuf = s.bitbuf) ∧
    (i = .feed → s.fatal = false → t.bitbuf <:+ s.bitbuf ++ s.ports.bits) ∧
    (i = .scan → t.bitbuf <:+ s.bitbuf) ∧
    (i = .rxchunk → ∃ new : Bits, new.length ≤ 1 ∧ t.bitbuf <:+ s.bitbuf ++ new) ∧
    ((i = .rxstart ∨ i = .rxstop) → t.bitbuf = [] ∨ t.bitbuf = s.bitbuf)) ∧
  ∀ s t : State, step s = .next t →
    (s.now.reset = true → t.bitbuf = []) ∧
    (s.now.reset = false → s.busy = some .rxchunk → ∃ new : Bits, new.length ≤ 1 ∧ t.bitbuf <:+ s.bitbuf ++ new) ∧
    (∀ m f, s.now.reset = false → s.busy = some (.calibrate m f) → t.bitbuf = s.bitbuf) ∧
    (s.now.reset = false → s.busy = none → s.cmd = [] → t.bitbuf = s.bitbuf) ∧
    (∀ c rest e, s.Takes c rest → decode c.word = .error e → t.bitbuf = s.bitbuf) ∧
    ∀ c rest i, s.Takes c rest → decode c.word = .ok i →
      (i ≠ .feed → i ≠ .scan → i ≠ .rxstart → i ≠ .rxchunk → i ≠ .rxstop → t.bitbuf = s.bitbuf) ∧
      (s.fatal = true → t.bitbuf = s.bitbuf) ∧
      (i = .feed → s.fatal = false → t.bitbuf <:+ s.bitbuf ++ c.operands.bits) ∧
      (i = .scan → t.bitbuf <:+ s.bitbuf) ∧
      (i = .rxchunk → ∃ new : Bits, new.length ≤ 1 ∧ t.bitbuf <:+ s.bitbuf ++ new) ∧
      ((i = .rxstart ∨ i = .rxstop) → t.bitbuf = [] ∨ t.bitbuf = s.bitbuf)

/-- R175, R192: the scanner never reads CFG: FEED and SCAN do the same under any configuration. -/
def Obligations.ScannerNeverReadsCfg : Prop :=
  ∀ (i : Instr) (s t : State) (c : ModemConfig), (i = .feed ∨ i = .scan) → exec i s = .next t →
    exec i { s with cfg := c } = .next { t with cfg := c }

/-- R33, R39, R124, R171: TONE, DOMFREQ, CLASSIFY, FRAME, DEFRAME, MODULATE and ENCODE change nothing but EVT and what
stands on the result ports, and do the same whatever BITBUF and RX_RUN hold. -/
def Obligations.CodecsIgnoreTheReceiveState : Prop :=
  ∀ (i : Instr) (s t : State) (buf : Bits) (run : Bool),
    i ≠ .cfgload → i ≠ .calibrate → i ≠ .feed → i ≠ .scan → i ≠ .rxstart → i ≠ .rxchunk → i ≠ .rxstop →
    exec i s = .next t →
    t = { s with evt := t.evt, res := t.res, wave := t.wave, spec := t.spec } ∧
      exec i { s with bitbuf := buf, rxRun := run } = .next { t with bitbuf := buf, rxRun := run }

/-- The frame of the other commands: what FEED, SCAN, RXSTART, RXCHUNK, RXSTOP, CALIBRATE and CFGLOAD leave as it was,
whatever they do (R39, R159, R160, R186, R215). -/
def Obligations.ReceiveAndControlFrames : Prop :=
  ∀ (i : Instr) (s t : State), exec i s = .next t →
    (i = .feed → t = { s with bitbuf := t.bitbuf, evt := t.evt, post := t.post, calls := t.calls }) ∧
    (i = .scan → t = { s with bitbuf := t.bitbuf, evt := t.evt, res := t.res }) ∧
    (i = .rxstart → t = { s with
      bitbuf := t.bitbuf, rxRun := t.rxRun, fatal := t.fatal, evt := t.evt, calls := t.calls }) ∧
    (i = .rxchunk → t = { s with
      bitbuf := t.bitbuf, rxRun := t.rxRun, evt := t.evt, post := t.post, calls := t.calls, mic := t.mic
      busy := t.busy, spec := t.spec }) ∧
    (i = .rxstop → t = { s with bitbuf := t.bitbuf, rxRun := t.rxRun, evt := t.evt, calls := t.calls }) ∧
    (i = .calibrate → t = { s with
      fatal := t.fatal, evt := t.evt, res := t.res, calls := t.calls, mic := t.mic, busy := t.busy }) ∧
    (i = .cfgload → t = { s with cfg := t.cfg, fatal := t.fatal, evt := t.evt })

/-- The invariant holds after reset (R23, R28, R29, R36). -/
def Obligations.InvariantHoldsAtReset : Prop := State.reset.Inv

/-- Every step keeps the invariant: a valid configuration (R23), a buffer in normal form (R28), no receive loop after a
fatal error (R29, R236), and no command in progress that its state does not admit (R85, R194). -/
def Obligations.EveryStepKeepsTheInvariant : Prop :=
  ∀ s t : State, s.Inv → step s = .next t → t.Inv
end

