-- ==== Sys2Proof/Laws/Bits.lean ====
section
/-! SUPPORT. Lemmas about bit sequences, marker search and one scanner call. -/

namespace Sys2Proof.Machine

@[simp] theorem START_length : START.length = 8 := rfl
@[simp] theorem END_length : END.length = 8 := rfl
@[simp] theorem bits_length (w : Byte) : (bits w).length = 8 := rfl

@[simp] theorem bitsOf_nil : bitsOf [] = [] := rfl
@[simp] theorem bitsOf_cons (b : Byte) (p : Bytes) : bitsOf (b :: p) = bits b ++ bitsOf p := rfl
@[simp] theorem bitsOf_append (p q : Bytes) : bitsOf (p ++ q) = bitsOf p ++ bitsOf q := by
  simp [bitsOf]

@[simp] theorem bitsOf_length (p : Bytes) : (bitsOf p).length = 8 * p.length := by
  induction p with
  | nil => rfl
  | cons b p ih => simp [ih]; omega

@[simp] theorem bytesOf_length (s : Bits) : (bytesOf s).length = s.length / 8 := by simp [bytesOf]

@[simp] theorem bodyOf_length (p : Bytes) : (bodyOf p).length = 8 * (p.length + 1) := by
  simp [bodyOf]; omega

@[simp] theorem frameBits_length (p : Bytes) : (frameBits p).length = 8 * (p.length + 3) := by
  simp [frameBits]; omega

theorem slice_length (s : Bits) (i j : Nat) : (slice s i j).length = min j s.length - i := by
  simp [slice]

theorem matchesAt_iff (s pat : Bits) (i : Nat) :
    matchesAt s pat i = true ↔ i + pat.length ≤ s.length ∧ slice s i (i + pat.length) = pat := by
  simp [matchesAt]

/-- A pattern that is found stands there, at or after the start, inside the sequence. -/
theorem find_some {s pat : Bits} {start i : Nat} (h : find s pat start = some i) :
    start ≤ i ∧ i + pat.length ≤ s.length ∧ slice s i (i + pat.length) = pat := by
  have h' := List.find?_some h
  simp only [Bool.and_eq_true, decide_eq_true_eq, matchesAt_iff] at h'
  exact h'

/-- The three things one scanner call can do: keep the last 7 bits, keep from START, or cut out a body. -/
theorem scan1_cases (buf : Bits) :
    (find buf START 0 = none ∧ scan1 buf = (none, buf.drop (buf.length - 7))) ∨
      (∃ a, find buf START 0 = some a ∧ find buf END (a + 8) = none ∧ scan1 buf = (none, buf.drop a)) ∨
      ∃ a e, find buf START 0 = some a ∧ find buf END (a + 8) = some e ∧ a + 8 ≤ e ∧ e + 8 ≤ buf.length ∧
        scan1 buf = (some (slice buf (a + 8) e), buf.drop (e + 8)) := by
  unfold scan1
  split
  · next h =>
    refine .inl ⟨h, ?_⟩
    have : buf.length - min buf.length 7 = buf.length - 7 := by omega
    simp [sliceFrom, this]
  · next a ha =>
    split
    · next h => exact .inr (.inl ⟨a, ha, h, rfl⟩)
    · next e h =>
      have := find_some h
      exact .inr (.inr ⟨a, e, ha, h, this.1, this.2.1, rfl⟩)

/-- What a scanner call leaves is a suffix of the buffer. -/
theorem scan1_rest_suffix (buf : Bits) : (scan1 buf).2 <:+ buf := by
  rcases scan1_cases buf with ⟨_, h⟩ | ⟨_, _, _, h⟩ | ⟨_, _, _, _, _, _, h⟩ <;> rw [h] <;> exact List.drop_suffix _ _

/-- A scanner call that emits a body shortens the buffer by at least 16 bits. -/
theorem scan1_some_shorter {buf body rest : Bits} (h : scan1 buf = (some body, rest)) :
    rest.length + 16 ≤ buf.length := by
  rcases scan1_cases buf with ⟨_, h'⟩ | ⟨_, _, _, h'⟩ | ⟨a, e, _, _, h1, h2, h'⟩ <;> rw [h'] at h
  · simp at h
  · simp at h
  · simp only [Prod.mk.injEq] at h
    rw [← h.2, List.length_drop]
    omega

end Sys2Proof.Machine
end

