-- ==== Sys2Proof/Laws/State.lean ====
section
/-! SUPPORT. What each update of the state makes of each field: one lemma per field per update, true by rfl. -/

namespace Sys2Proof.Machine

section
variable (s : State) (e : Event)
@[simp] theorem State.report_cfg : (s.report e).cfg = s.cfg := rfl
@[simp] theorem State.report_bitbuf : (s.report e).bitbuf = s.bitbuf := rfl
@[simp] theorem State.report_rxRun : (s.report e).rxRun = s.rxRun := rfl
@[simp] theorem State.report_fatal : (s.report e).fatal = s.fatal := rfl
@[simp] theorem State.report_evt : (s.report e).evt = s.evt ++ [e] := rfl
@[simp] theorem State.report_busy : (s.report e).busy = s.busy := rfl
@[simp] theorem State.report_res : (s.report e).res = s.res := rfl
@[simp] theorem State.report_wave : (s.report e).wave = s.wave := rfl
@[simp] theorem State.report_spec : (s.report e).spec = s.spec := rfl
@[simp] theorem State.report_calls : (s.report e).calls = s.calls := rfl
@[simp] theorem State.report_cmd : (s.report e).cmd = s.cmd := rfl
@[simp] theorem State.report_ports : (s.report e).ports = s.ports := rfl
@[simp] theorem State.report_now : (s.report e).now = s.now := rfl
@[simp] theorem State.report_later : (s.report e).later = s.later := rfl
@[simp] theorem State.report_mic : (s.report e).mic = s.mic := rfl
@[simp] theorem State.report_post : (s.report e).post = s.post := rfl
@[simp] theorem State.report_params : (s.report e).params = s.params := rfl
end

section
variable (s : State) (r : Result)
@[simp] theorem State.outRes_cfg : (s.outRes r).cfg = s.cfg := rfl
@[simp] theorem State.outRes_bitbuf : (s.outRes r).bitbuf = s.bitbuf := rfl
@[simp] theorem State.outRes_rxRun : (s.outRes r).rxRun = s.rxRun := rfl
@[simp] theorem State.outRes_fatal : (s.outRes r).fatal = s.fatal := rfl
@[simp] theorem State.outRes_evt : (s.outRes r).evt = s.evt := rfl
@[simp] theorem State.outRes_busy : (s.outRes r).busy = s.busy := rfl
@[simp] theorem State.outRes_res : (s.outRes r).res = some r := rfl
@[simp] theorem State.outRes_wave : (s.outRes r).wave = s.wave := rfl
@[simp] theorem State.outRes_spec : (s.outRes r).spec = s.spec := rfl
@[simp] theorem State.outRes_calls : (s.outRes r).calls = s.calls := rfl
@[simp] theorem State.outRes_cmd : (s.outRes r).cmd = s.cmd := rfl
@[simp] theorem State.outRes_ports : (s.outRes r).ports = s.ports := rfl
@[simp] theorem State.outRes_now : (s.outRes r).now = s.now := rfl
@[simp] theorem State.outRes_later : (s.outRes r).later = s.later := rfl
@[simp] theorem State.outRes_mic : (s.outRes r).mic = s.mic := rfl
@[simp] theorem State.outRes_post : (s.outRes r).post = s.post := rfl
@[simp] theorem State.outRes_params : (s.outRes r).params = s.params := rfl
end

section
variable (s : State) (w : List Sample)
@[simp] theorem State.outWave_cfg : (s.outWave w).cfg = s.cfg := rfl
@[simp] theorem State.outWave_bitbuf : (s.outWave w).bitbuf = s.bitbuf := rfl
@[simp] theorem State.outWave_rxRun : (s.outWave w).rxRun = s.rxRun := rfl
@[simp] theorem State.outWave_fatal : (s.outWave w).fatal = s.fatal := rfl
@[simp] theorem State.outWave_evt : (s.outWave w).evt = s.evt := rfl
@[simp] theorem State.outWave_busy : (s.outWave w).busy = s.busy := rfl
@[simp] theorem State.outWave_res : (s.outWave w).res = s.res := rfl
@[simp] theorem State.outWave_wave : (s.outWave w).wave = some ⟨w, s.cfg.fs⟩ := rfl
@[simp] theorem State.outWave_spec : (s.outWave w).spec = s.spec := rfl
@[simp] theorem State.outWave_calls : (s.outWave w).calls = s.calls := rfl
@[simp] theorem State.outWave_cmd : (s.outWave w).cmd = s.cmd := rfl
@[simp] theorem State.outWave_ports : (s.outWave w).ports = s.ports := rfl
@[simp] theorem State.outWave_now : (s.outWave w).now = s.now := rfl
@[simp] theorem State.outWave_later : (s.outWave w).later = s.later := rfl
@[simp] theorem State.outWave_mic : (s.outWave w).mic = s.mic := rfl
@[simp] theorem State.outWave_post : (s.outWave w).post = s.post := rfl
@[simp] theorem State.outWave_params : (s.outWave w).params = s.params := rfl
end

section
variable (s : State) (v : Spectrum)
@[simp] theorem State.outSpec_cfg : (s.outSpec v).cfg = s.cfg := rfl
@[simp] theorem State.outSpec_bitbuf : (s.outSpec v).bitbuf = s.bitbuf := rfl
@[simp] theorem State.outSpec_rxRun : (s.outSpec v).rxRun = s.rxRun := rfl
@[simp] theorem State.outSpec_fatal : (s.outSpec v).fatal = s.fatal := rfl
@[simp] theorem State.outSpec_evt : (s.outSpec v).evt = s.evt := rfl
@[simp] theorem State.outSpec_busy : (s.outSpec v).busy = s.busy := rfl
@[simp] theorem State.outSpec_res : (s.outSpec v).res = s.res := rfl
@[simp] theorem State.outSpec_wave : (s.outSpec v).wave = s.wave := rfl
@[simp] theorem State.outSpec_spec : (s.outSpec v).spec = some v := rfl
@[simp] theorem State.outSpec_calls : (s.outSpec v).calls = s.calls := rfl
@[simp] theorem State.outSpec_cmd : (s.outSpec v).cmd = s.cmd := rfl
@[simp] theorem State.outSpec_ports : (s.outSpec v).ports = s.ports := rfl
@[simp] theorem State.outSpec_now : (s.outSpec v).now = s.now := rfl
@[simp] theorem State.outSpec_later : (s.outSpec v).later = s.later := rfl
@[simp] theorem State.outSpec_mic : (s.outSpec v).mic = s.mic := rfl
@[simp] theorem State.outSpec_post : (s.outSpec v).post = s.post := rfl
@[simp] theorem State.outSpec_params : (s.outSpec v).params = s.params := rfl
end

section
variable (s : State) (b : Bits)
@[simp] theorem State.setBitbuf_cfg : (s.setBitbuf b).cfg = s.cfg := rfl
@[simp] theorem State.setBitbuf_bitbuf : (s.setBitbuf b).bitbuf = b := rfl
@[simp] theorem State.setBitbuf_rxRun : (s.setBitbuf b).rxRun = s.rxRun := rfl
@[simp] theorem State.setBitbuf_fatal : (s.setBitbuf b).fatal = s.fatal := rfl
@[simp] theorem State.setBitbuf_evt : (s.setBitbuf b).evt = s.evt := rfl
@[simp] theorem State.setBitbuf_busy : (s.setBitbuf b).busy = s.busy := rfl
@[simp] theorem State.setBitbuf_res : (s.setBitbuf b).res = s.res := rfl
@[simp] theorem State.setBitbuf_wave : (s.setBitbuf b).wave = s.wave := rfl
@[simp] theorem State.setBitbuf_spec : (s.setBitbuf b).spec = s.spec := rfl
@[simp] theorem State.setBitbuf_calls : (s.setBitbuf b).calls = s.calls := rfl
@[simp] theorem State.setBitbuf_cmd : (s.setBitbuf b).cmd = s.cmd := rfl
@[simp] theorem State.setBitbuf_ports : (s.setBitbuf b).ports = s.ports := rfl
@[simp] theorem State.setBitbuf_now : (s.setBitbuf b).now = s.now := rfl
@[simp] theorem State.setBitbuf_later : (s.setBitbuf b).later = s.later := rfl
@[simp] theorem State.setBitbuf_mic : (s.setBitbuf b).mic = s.mic := rfl
@[simp] theorem State.setBitbuf_post : (s.setBitbuf b).post = s.post := rfl
@[simp] theorem State.setBitbuf_params : (s.setBitbuf b).params = s.params := rfl
end

section
variable (s : State) (c : Call)
@[simp] theorem State.call_cfg : (s.call c).cfg = s.cfg := rfl
@[simp] theorem State.call_bitbuf : (s.call c).bitbuf = s.bitbuf := rfl
@[simp] theorem State.call_rxRun : (s.call c).rxRun = s.rxRun := rfl
@[simp] theorem State.call_fatal : (s.call c).fatal = s.fatal := rfl
@[simp] theorem State.call_evt : (s.call c).evt = s.evt := rfl
@[simp] theorem State.call_busy : (s.call c).busy = s.busy := rfl
@[simp] theorem State.call_res : (s.call c).res = s.res := rfl
@[simp] theorem State.call_wave : (s.call c).wave = s.wave := rfl
@[simp] theorem State.call_spec : (s.call c).spec = s.spec := rfl
@[simp] theorem State.call_calls : (s.call c).calls = s.calls ++ [c] := rfl
@[simp] theorem State.call_cmd : (s.call c).cmd = s.cmd := rfl
@[simp] theorem State.call_ports : (s.call c).ports = s.ports := rfl
@[simp] theorem State.call_now : (s.call c).now = s.now := rfl
@[simp] theorem State.call_later : (s.call c).later = s.later := rfl
@[simp] theorem State.call_mic : (s.call c).mic = s.mic := rfl
@[simp] theorem State.call_post : (s.call c).post = s.post := rfl
@[simp] theorem State.call_params : (s.call c).params = s.params := rfl
end

section
variable (s : State) (c : Command) (rest : List Command)
@[simp] theorem State.takeCommand_cfg : (s.takeCommand c rest).cfg = s.cfg := rfl
@[simp] theorem State.takeCommand_bitbuf : (s.takeCommand c rest).bitbuf = s.bitbuf := rfl
@[simp] theorem State.takeCommand_rxRun : (s.takeCommand c rest).rxRun = s.rxRun := rfl
@[simp] theorem State.takeCommand_fatal : (s.takeCommand c rest).fatal = s.fatal := rfl
@[simp] theorem State.takeCommand_evt : (s.takeCommand c rest).evt = s.evt := rfl
@[simp] theorem State.takeCommand_busy : (s.takeCommand c rest).busy = s.busy := rfl
@[simp] theorem State.takeCommand_res : (s.takeCommand c rest).res = s.res := rfl
@[simp] theorem State.takeCommand_wave : (s.takeCommand c rest).wave = s.wave := rfl
@[simp] theorem State.takeCommand_spec : (s.takeCommand c rest).spec = s.spec := rfl
@[simp] theorem State.takeCommand_calls : (s.takeCommand c rest).calls = s.calls := rfl
@[simp] theorem State.takeCommand_cmd : (s.takeCommand c rest).cmd = rest := rfl
@[simp] theorem State.takeCommand_ports : (s.takeCommand c rest).ports = c.operands := rfl
@[simp] theorem State.takeCommand_now : (s.takeCommand c rest).now = s.now := rfl
@[simp] theorem State.takeCommand_later : (s.takeCommand c rest).later = s.later := rfl
@[simp] theorem State.takeCommand_mic : (s.takeCommand c rest).mic = s.mic := rfl
@[simp] theorem State.takeCommand_post : (s.takeCommand c rest).post = s.post := rfl
@[simp] theorem State.takeCommand_params : (s.takeCommand c rest).params = s.params := rfl
end

section
variable (s : State) (rest : List Command)
@[simp] theorem State.dropCommand_cfg : (s.dropCommand rest).cfg = s.cfg := rfl
@[simp] theorem State.dropCommand_bitbuf : (s.dropCommand rest).bitbuf = s.bitbuf := rfl
@[simp] theorem State.dropCommand_rxRun : (s.dropCommand rest).rxRun = s.rxRun := rfl
@[simp] theorem State.dropCommand_fatal : (s.dropCommand rest).fatal = s.fatal := rfl
@[simp] theorem State.dropCommand_evt : (s.dropCommand rest).evt = s.evt := rfl
@[simp] theorem State.dropCommand_busy : (s.dropCommand rest).busy = s.busy := rfl
@[simp] theorem State.dropCommand_res : (s.dropCommand rest).res = s.res := rfl
@[simp] theorem State.dropCommand_wave : (s.dropCommand rest).wave = s.wave := rfl
@[simp] theorem State.dropCommand_spec : (s.dropCommand rest).spec = s.spec := rfl
@[simp] theorem State.dropCommand_calls : (s.dropCommand rest).calls = s.calls := rfl
@[simp] theorem State.dropCommand_cmd : (s.dropCommand rest).cmd = rest := rfl
@[simp] theorem State.dropCommand_ports : (s.dropCommand rest).ports = s.ports := rfl
@[simp] theorem State.dropCommand_now : (s.dropCommand rest).now = s.now := rfl
@[simp] theorem State.dropCommand_later : (s.dropCommand rest).later = s.later := rfl
@[simp] theorem State.dropCommand_mic : (s.dropCommand rest).mic = s.mic := rfl
@[simp] theorem State.dropCommand_post : (s.dropCommand rest).post = s.post := rfl
@[simp] theorem State.dropCommand_params : (s.dropCommand rest).params = s.params := rfl
end

section
variable (s : State)
@[simp] theorem State.beginStep_cfg : (s.beginStep).cfg = s.cfg := rfl
@[simp] theorem State.beginStep_bitbuf : (s.beginStep).bitbuf = s.bitbuf := rfl
@[simp] theorem State.beginStep_rxRun : (s.beginStep).rxRun = s.rxRun := rfl
@[simp] theorem State.beginStep_fatal : (s.beginStep).fatal = s.fatal := rfl
@[simp] theorem State.beginStep_evt : (s.beginStep).evt = s.evt := rfl
@[simp] theorem State.beginStep_busy : (s.beginStep).busy = s.busy := rfl
@[simp] theorem State.beginStep_res : (s.beginStep).res = none := rfl
@[simp] theorem State.beginStep_wave : (s.beginStep).wave = none := rfl
@[simp] theorem State.beginStep_spec : (s.beginStep).spec = none := rfl
@[simp] theorem State.beginStep_calls : (s.beginStep).calls = [] := rfl
@[simp] theorem State.beginStep_cmd : (s.beginStep).cmd = s.cmd := rfl
@[simp] theorem State.beginStep_ports : (s.beginStep).ports = s.ports := rfl
@[simp] theorem State.beginStep_now : (s.beginStep).now = s.now := rfl
@[simp] theorem State.beginStep_later : (s.beginStep).later = s.later := rfl
@[simp] theorem State.beginStep_mic : (s.beginStep).mic = ⟨s.mic.frames ++ s.now.arriving, s.mic.ovf || s.now.lost⟩ := rfl
@[simp] theorem State.beginStep_post : (s.beginStep).post = s.post := rfl
@[simp] theorem State.beginStep_params : (s.beginStep).params = s.params := rfl
end

section
variable (s : State)
@[simp] theorem State.endStep_cfg : s.endStep.cfg = s.cfg := by unfold State.endStep; split <;> rfl
@[simp] theorem State.endStep_bitbuf : s.endStep.bitbuf = s.bitbuf := by unfold State.endStep; split <;> rfl
@[simp] theorem State.endStep_rxRun : s.endStep.rxRun = s.rxRun := by unfold State.endStep; split <;> rfl
@[simp] theorem State.endStep_fatal : s.endStep.fatal = s.fatal := by unfold State.endStep; split <;> rfl
@[simp] theorem State.endStep_evt : s.endStep.evt = s.evt := by unfold State.endStep; split <;> rfl
@[simp] theorem State.endStep_busy : s.endStep.busy = s.busy := by unfold State.endStep; split <;> rfl
@[simp] theorem State.endStep_res : s.endStep.res = s.res := by unfold State.endStep; split <;> rfl
@[simp] theorem State.endStep_wave : s.endStep.wave = s.wave := by unfold State.endStep; split <;> rfl
@[simp] theorem State.endStep_spec : s.endStep.spec = s.spec := by unfold State.endStep; split <;> rfl
@[simp] theorem State.endStep_calls : s.endStep.calls = s.calls := by unfold State.endStep; split <;> rfl
@[simp] theorem State.endStep_cmd : s.endStep.cmd = s.cmd := by unfold State.endStep; split <;> rfl
@[simp] theorem State.endStep_ports : s.endStep.ports = s.ports := by unfold State.endStep; split <;> rfl
@[simp] theorem State.endStep_mic : s.endStep.mic = s.mic := by unfold State.endStep; split <;> rfl
@[simp] theorem State.endStep_post : s.endStep.post = s.post := by unfold State.endStep; split <;> rfl
@[simp] theorem State.endStep_params : s.endStep.params = s.params := by unfold State.endStep; split <;> rfl
@[simp] theorem State.captureClose_eq_call : s.captureClose = s.call .captureClose := rfl
@[simp] theorem State.refuseCommand_eq_report (w : Byte) : s.refuseCommand w = s.report (.commandError w) := rfl
@[simp] theorem State.refuseOperand_eq_report (w : Byte) : s.refuseOperand w = s.report (.operandError w) := rfl
@[simp] theorem World.settle_reset (w : World) : w.settle.reset = w.reset := rfl
@[simp] theorem World.settle_abort (w : World) : w.settle.abort = w.abort := rfl
@[simp] theorem World.settle_canOpen (w : World) : w.settle.canOpen = w.canOpen := rfl
@[simp] theorem World.settle_arriving (w : World) : w.settle.arriving = [] := rfl
@[simp] theorem World.settle_lost (w : World) : w.settle.lost = false := rfl
end

end Sys2Proof.Machine
end

