-- ==== Sys2Proof/Laws/Ops.lean ====
section
/-! SUPPORT. One lemma for each shared operation that says everything it can do. -/

namespace Sys2Proof.Machine

/-- A command always answers a next state: refused while FATAL is 1 or where its state does not admit it, otherwise
its effect. -/
theorem runCommand_cases {i : Instr} {ok : Bool} {s e : State} {t : State} (h : runCommand i ok s e = .next t) :
    ((s.fatal = true ∨ ok = false) ∧ t = s.report (.commandError (encode i))) ∨
      (s.fatal = false ∧ ok = true ∧ t = e) := by
  unfold runCommand at h
  cases hf : s.fatal <;> cases ok <;> simp_all

theorem runCommand_admitted {i : Instr} {s e : State} (h : s.fatal = false) :
    runCommand i true s e = .next e := by
  simp [runCommand, h]

theorem runCommand_refused {i : Instr} {ok : Bool} {s e : State} (h : s.fatal = true ∨ ok = false) :
    runCommand i ok s e = .next (s.report (.commandError (encode i))) := by
  unfold runCommand
  rcases h with h | h <;> simp [h]

/-- Every command answers a next state. -/
theorem exec_next (i : Instr) (s : State) : ∃ t, exec i s = .next t := by
  cases i <;> exact ⟨_, rfl⟩

/-- A read gives the next `n` sample frames with the flag and consumes them, or nothing while fewer are delivered. -/
theorem captureRead_cases (s : State) (n : Nat) :
    (s.mic.frames.length < n ∧ s.captureRead n = none) ∨
      (n ≤ s.mic.frames.length ∧ s.captureRead n = some (s.mic.frames.take n, s.mic.ovf,
        { s with mic := ⟨s.mic.frames.drop n, false⟩, calls := s.calls ++ [.captureRead n] })) := by
  unfold State.captureRead
  by_cases h : n ≤ s.mic.frames.length
  · exact .inr ⟨h, by simp [h, State.call]⟩
  · exact .inl ⟨by omega, by simp [h]⟩

theorem fatalError_running {s : State} {e : Event} (h : s.rxRun = true) : s.fatalError e =
    { s with
      evt := s.evt ++ [e], calls := s.calls ++ [.captureClose], rxRun := false, bitbuf := [], fatal := true } := by
  simp [State.fatalError, h, State.report, State.call]

theorem fatalError_idle {s : State} {e : Event} (h : s.rxRun = false) : s.fatalError e =
    { s with evt := s.evt ++ [e], fatal := true } := by
  simp [State.fatalError, h, State.report]

theorem abortExit_eq (s : State) : s.abortExit =
    { s with
      calls := s.calls ++ [.captureClose], bitbuf := [], rxRun := false, evt := s.evt ++ [.interrupted] } := rfl

/-- A reset puts the core's state to its reset values, drops what stands on the result ports and any command in
progress, and closes a held capture; what is outside the core stays. -/
theorem resetCore_eq (s : State) : s.resetCore =
    { s with
      cfg := State.reset.cfg, bitbuf := [], rxRun := false, fatal := false, evt := [], busy := none, res := none
      wave := none, spec := none, calls := s.calls ++ if captureHeld s = true then [.captureClose] else [] } := by
  unfold State.resetCore
  by_cases h : captureHeld s = true <;> simp [h, State.call, State.reset]

/-- Handling a frame reports exactly one event; only for a frame with a valid checksum is `Post` called. -/
theorem handle_cases (s : State) (body : Bits) :
    (∃ e, s.handle body = s.report e) ∨
      ∃ p e, s.handle body =
        { s with post := s.post.tail, calls := s.calls ++ [.post p], evt := s.evt ++ [e] } := by
  unfold State.handle
  split
  · exact .inl ⟨_, rfl⟩
  · split
    · exact .inl ⟨_, rfl⟩
    · dsimp only
      split
      · exact .inl ⟨_, rfl⟩
      · right
        split
        · next h =>
          simp only [State.callPost, Prod.mk.injEq] at h
          exact ⟨_, .confidentialityError, by rw [← h.2]; rfl⟩
        · next r s' h =>
          simp only [State.callPost, Prod.mk.injEq] at h
          exact ⟨_, .frameOk r, by rw [← h.2]; rfl⟩

/-- The frame of `handle`: only EVT, the answers of `Post` and the calls change. -/
theorem handle_frame (s : State) (body : Bits) :
    s.handle body = { s with
      evt := (s.handle body).evt, post := (s.handle body).post, calls := (s.handle body).calls } := by
  rcases handle_cases s body with ⟨e, h⟩ | ⟨p, e, h⟩
  · rw [h]; rfl
  · rw [h]

/-- The frame of the drain loop: only BITBUF, EVT, the answers of `Post` and the calls change. -/
theorem drainLoop_frame (fuel : Nat) (s : State) :
    drainLoop fuel s = { s with
      bitbuf := (drainLoop fuel s).bitbuf, evt := (drainLoop fuel s).evt, post := (drainLoop fuel s).post
      calls := (drainLoop fuel s).calls } := by
  induction fuel generalizing s with
  | zero => rfl
  | succ n ih =>
    simp only [drainLoop]
    split
    · rfl
    · next body rest _ =>
      rw [ih, handle_frame]
      rfl

end Sys2Proof.Machine
end

