-- ==== Sys2Proof/Laws/PerInstr.lean ====
section
/-! SUPPORT. Families of statements made per command. EncodeDecode: the word of a command is legal and decodes back to
it. -/

namespace Sys2Proof.Laws.EncodeDecode

def Statement (i : Instr) : Prop :=
  i.WellFormed = true ∧ WordLegal (encode i) = true ∧ decode (encode i) = .ok i

theorem cfgload : Statement .cfgload := ⟨rfl, rfl, rfl⟩
theorem tone (b : Bit) : Statement (.tone b) := by cases b <;> exact ⟨rfl, rfl, rfl⟩
theorem domfreq : Statement .domfreq := ⟨rfl, rfl, rfl⟩
theorem classify : Statement .classify := ⟨rfl, rfl, rfl⟩
theorem frame : Statement .frame := ⟨rfl, rfl, rfl⟩
theorem deframe : Statement .deframe := ⟨rfl, rfl, rfl⟩
theorem calibrate : Statement .calibrate := ⟨rfl, rfl, rfl⟩
theorem modulate : Statement .modulate := ⟨rfl, rfl, rfl⟩
theorem encode : Statement .encode := ⟨rfl, rfl, rfl⟩
theorem feed : Statement .feed := ⟨rfl, rfl, rfl⟩
theorem scan : Statement .scan := ⟨rfl, rfl, rfl⟩
theorem rxstart : Statement .rxstart := ⟨rfl, rfl, rfl⟩
theorem rxchunk : Statement .rxchunk := ⟨rfl, rfl, rfl⟩
theorem rxstop : Statement .rxstop := ⟨rfl, rfl, rfl⟩

end Sys2Proof.Laws.EncodeDecode
end

