-- ==== Sys2Proof/Laws/Samples.lean ====
section
/-! SUPPORT. What the arithmetic of samples does to the real numbers samples stand for. -/

namespace Sys2Proof.Machine

/-- The real number a combination stands for under a valuation of its names. -/
theorem addTerm_value {κ : Type} [DecidableEq κ] [LT κ] [DecidableLT κ] (e : κ → ℝ) (key : κ) (c : Rat)
    (l : List (κ × Rat)) :
    ((addTerm key c l).map fun t => (t.2 : ℝ) * e t.1).sum = (l.map fun t => (t.2 : ℝ) * e t.1).sum + c * e key := by
  induction l with
  | nil => by_cases h : c = 0 <;> simp [addTerm, h]
  | cons t rest ih =>
    obtain ⟨k, d⟩ := t
    simp only [addTerm]
    split
    · next hk =>
      subst hk
      split
      · next hz =>
        have hz' : (d : ℝ) + (c : ℝ) = 0 := by exact_mod_cast hz
        simp only [List.map_cons, List.sum_cons]
        linear_combination (-(e key)) * hz'
      · simp only [List.map_cons, List.sum_cons]
        push_cast
        ring
    · split
      · split
        · next hc => simp [hc]
        · simp only [List.map_cons, List.sum_cons]
          ring
      · simp only [List.map_cons, List.sum_cons, ih]
        ring

theorem addTerms_value {κ : Type} [DecidableEq κ] [LT κ] [DecidableLT κ] (e : κ → ℝ) (a b : List (κ × Rat)) :
    ((addTerms a b).map fun t => (t.2 : ℝ) * e t.1).sum =
      (a.map fun t => (t.2 : ℝ) * e t.1).sum + (b.map fun t => (t.2 : ℝ) * e t.1).sum := by
  unfold addTerms
  induction b generalizing a with
  | nil => simp
  | cons t rest ih =>
    simp only [List.foldl_cons, ih, addTerm_value, List.map_cons, List.sum_cons]
    ring

variable (env : Nat → ℝ)

@[simp] theorem sampleValue_zero : sampleValue env Sample.zero = 0 := by simp [sampleValue, Sample.zero]

@[simp] theorem sampleValue_ofRat (q : Rat) : sampleValue env (Sample.ofRat q) = q := by
  simp [sampleValue, Sample.ofRat]

@[simp] theorem sampleValue_ofSine (c turns : Rat) :
    sampleValue env (Sample.ofSine c turns) = c * Real.sin (2 * Real.pi * turns) := by
  have := addTerm_value (fun t : Rat => Real.sin (2 * Real.pi * (t : ℝ))) turns c []
  simp only [List.map_nil, List.sum_nil, zero_add] at this
  simp [sampleValue, Sample.ofSine, this]

@[simp] theorem sampleValue_add (v w : Sample) :
    sampleValue env (v.add w) = sampleValue env v + sampleValue env w := by
  have h1 := addTerms_value (fun t : Rat => Real.sin (2 * Real.pi * (t : ℝ))) v.sines w.sines
  have h2 := addTerms_value env v.inputs w.inputs
  simp only [sampleValue, Sample.add, h1, h2]
  push_cast
  ring

/-- Multiplying every coefficient of a combination multiplies what it stands for. -/
theorem scaleTerms_value {κ : Type} (e : κ → ℝ) (a : Rat) (l : List (κ × Rat)) :
    ((l.map fun t => (t.1, a * t.2)).map fun t => (t.2 : ℝ) * e t.1).sum =
      a * (l.map fun t => (t.2 : ℝ) * e t.1).sum := by
  induction l with
  | nil => simp
  | cons t rest ih =>
    simp only [List.map_cons, List.sum_cons, ih]
    push_cast
    ring

@[simp] theorem sampleValue_scale (a : Rat) (v : Sample) : sampleValue env (v.scale a) = a * sampleValue env v := by
  unfold Sample.scale
  split
  · next h => simp [h]
  · have h1 := scaleTerms_value (fun t : Rat => Real.sin (2 * Real.pi * (t : ℝ))) a v.sines
    have h2 := scaleTerms_value env a v.inputs
    simp only [sampleValue, h1, h2]
    push_cast
    ring

@[simp] theorem sampleValue_sum (f : List Sample) :
    sampleValue env (Sample.sum f) = (f.map (sampleValue env)).sum := by
  have h : ∀ (vs : List Sample) (v : Sample),
      sampleValue env (vs.foldl Sample.add v) = sampleValue env v + (vs.map (sampleValue env)).sum := by
    intro vs
    induction vs with
    | nil => simp
    | cons w ws ih => intro v; simp only [List.foldl_cons, ih, sampleValue_add, List.map_cons, List.sum_cons]; ring
  cases f with
  | nil => simp [Sample.sum]
  | cons v vs => simp only [Sample.sum, h, List.map_cons, List.sum_cons]

/-- The mean of a sample frame stands for the mean of its values. -/
theorem sampleValue_mean (f : List Sample) :
    sampleValue env (Sample.mean f) = (f.map (sampleValue env)).sum / f.length := by
  unfold Sample.mean
  simp only [sampleValue_scale, sampleValue_sum]
  push_cast
  ring

/-- Ideal real arithmetic is an instance of the free order: some assignment of rationals to sums of terms orders them as
their absolute values are ordered, whatever the values from outside. -/
theorem exists_ideal_order :
    ∃ f : List SpectrumTerm → ℚ, ∀ a b : List SpectrumTerm,
      |f a| ≤ |f b| ↔ ‖(a.map (termValue env)).sum‖ ≤ ‖(b.map (termValue env)).sum‖ := by
  have hs : Countable Sample :=
    Function.Injective.countable (f := fun v : Sample => (v.num, v.sines, v.inputs)) fun a b h => by
      cases a; cases b; simpa using h
  have ht : Countable SpectrumTerm :=
    Function.Injective.countable (f := fun t : SpectrumTerm => (t.sample, t.window, t.phase)) fun a b h => by
      cases a; cases b; simpa using h
  let mag : List SpectrumTerm → ℝ := fun a => ‖(a.map (termValue env)).sum‖
  have hc : Countable (Set.range mag) := Set.countable_range mag
  obtain ⟨g⟩ := Order.embedding_from_countable_to_dense (Set.range mag) (Set.Ioi (0 : ℚ))
  refine ⟨fun a => (g ⟨mag a, a, rfl⟩ : ℚ), fun a b => ?_⟩
  have ha : 0 < (g ⟨mag a, a, rfl⟩ : ℚ) := (g ⟨mag a, a, rfl⟩).2
  have hb : 0 < (g ⟨mag b, b, rfl⟩ : ℚ) := (g ⟨mag b, b, rfl⟩).2
  rw [abs_of_pos ha, abs_of_pos hb, Subtype.coe_le_coe, g.le_iff_le]
  exact Iff.rfl

/-- A frame of zeros has the mean 0, in every domain. -/
theorem mean_zeros {f : List Sample} (h : ∀ v ∈ f, v = Sample.zero) : Sample.mean f = Sample.zero := by
  have hs : ∀ vs : List Sample, (∀ v ∈ vs, v = Sample.zero) → vs.foldl Sample.add Sample.zero = Sample.zero := by
    intro vs
    induction vs with
    | nil => intro _; rfl
    | cons w ws ih =>
      intro hw
      have hz : Sample.zero.add Sample.zero = Sample.zero := by simp [Sample.add, Sample.zero, addTerms]
      rw [List.foldl_cons, hw w (by simp), hz]
      exact ih fun v hv => hw v (by simp [hv])
  have hsum : Sample.sum f = Sample.zero := by
    cases f with
    | nil => rfl
    | cons v vs =>
      rw [Sample.sum, h v (by simp)]
      exact hs vs fun w hw => h w (by simp [hw])
  unfold Sample.mean
  rw [hsum]
  unfold Sample.scale
  split
  · rfl
  · simp [Sample.zero]

end Sys2Proof.Machine
end

