-- ==== Sys2Proof/Laws/Step.lean ====
section
/-! SUPPORT. What a step can do, said once: the five cases of `step`, and what follows for every step at once. -/

namespace Sys2Proof.Machine

@[simp] theorem finish_next (t : State) : finish (.next t) = .next t.endStep := rfl

/-- Everything a step can do: reset; go on with a command that waits; stay idle; refuse an illegal word; run a
command. -/
theorem step_cases {s t : State} (h : step s = .next t) :
    (s.now.reset = true ∧ t = s.beginStep.resetCore.endStep) ∨
      (s.now.reset = false ∧ ∃ b, s.busy = some b ∧ t = (s.beginStep.resume b).endStep) ∨
      (s.now.reset = false ∧ s.busy = none ∧ s.cmd = [] ∧ t = s.beginStep.endStep) ∨
      (∃ c rest e, s.Takes c rest ∧ decode c.word = .error e ∧
        t = ((s.beginStep.dropCommand rest).report (.commandError c.word)).endStep) ∨
      ∃ c rest i u, s.Takes c rest ∧ decode c.word = .ok i ∧ exec i (s.beginStep.takeCommand c rest) = .next u ∧
        t = u.endStep := by
  unfold step State.doing at h
  cases hr : s.now.reset
  · simp only [hr] at h
    cases hb : s.busy with
    | some b =>
      simp only [hb, Bool.false_eq_true, if_false, finish_next, Host.Outcome.next.injEq] at h
      exact .inr (.inl ⟨rfl, b, rfl, h.symm⟩)
    | none =>
      simp only [hb] at h
      cases hc : s.cmd with
      | nil =>
        simp only [hc, Bool.false_eq_true, if_false, finish_next, Host.Outcome.next.injEq] at h
        exact .inr (.inr (.inl ⟨rfl, rfl, rfl, h.symm⟩))
      | cons c rest =>
        simp only [hc] at h
        cases hd : decode c.word with
        | error e =>
          simp only [hd, Bool.false_eq_true, if_false, finish_next, Host.Outcome.next.injEq] at h
          exact .inr (.inr (.inr (.inl ⟨c, rest, e, ⟨hr, hb, hc⟩, hd, h.symm⟩)))
        | ok i =>
          obtain ⟨u, hu⟩ := exec_next i (s.beginStep.takeCommand c rest)
          simp only [hd, hu, Bool.false_eq_true, if_false, finish_next, Host.Outcome.next.injEq] at h
          exact .inr (.inr (.inr (.inr ⟨c, rest, i, u, ⟨hr, hb, hc⟩, hd, hu, h.symm⟩)))
  · simp only [hr, if_true, finish_next, Host.Outcome.next.injEq] at h
    exact .inl ⟨rfl, h.symm⟩

/-- The frame of processing one chunk: BITBUF, EVT, the answers of `Post`, the calls and SPEC. -/
theorem rxProcess_frame (chunk : Chunk) (ovf : Bool) (s : State) : rxProcess chunk ovf s = { s with
    bitbuf := (rxProcess chunk ovf s).bitbuf, evt := (rxProcess chunk ovf s).evt
    post := (rxProcess chunk ovf s).post, calls := (rxProcess chunk ovf s).calls
    spec := (rxProcess chunk ovf s).spec } := by
  simp only [rxProcess]
  split
  · split <;> rfl
  · unfold State.appendAndDrain State.drain
    rw [drainLoop_frame]
    split <;> rfl

/-- The read of RXCHUNK waits, or processes the chunk it gets. -/
theorem rxRead_cases (s : State) :
    (s.mic.frames.length < chunkLen s.params s.cfg ∧ rxRead s = { s with busy := some .rxchunk }) ∨
      (chunkLen s.params s.cfg ≤ s.mic.frames.length ∧ rxRead s =
        rxProcess (s.mic.frames.take (chunkLen s.params s.cfg)) s.mic.ovf { s with
          mic := ⟨s.mic.frames.drop (chunkLen s.params s.cfg), false⟩
          calls := s.calls ++ [.captureRead (chunkLen s.params s.cfg)], busy := none }) := by
  unfold rxRead
  rcases captureRead_cases s (chunkLen s.params s.cfg) with ⟨hl, h⟩ | ⟨hl, h⟩ <;> rw [h]
  · exact .inl ⟨hl, rfl⟩
  · exact .inr ⟨hl, rfl⟩

/-- The end of a calibration: the capture closed, the overflow warned of, and a pair delivered or an error
reported. -/
theorem calibrateFinish_cases (minFreq : Rat) (chunk : Chunk) (ovf : Bool) (s : State) :
    (∃ cause, analyse s.params s.cfg.fs minFreq (mono chunk) = .failed cause ∧
      calibrateFinish minFreq chunk ovf s = { s with
        calls := s.calls ++ [.captureClose]
        evt := s.evt ++ (if ovf = true then [.captureOverflow] else []) ++ [.calibrationError cause] }) ∨
      ∃ low high, analyse s.params s.cfg.fs minFreq (mono chunk) = .pair low high ∧
        calibrateFinish minFreq chunk ovf s = { s with
          calls := s.calls ++ [.captureClose]
          evt := s.evt ++ (if ovf = true then [.captureOverflow] else [])
          res := some (.carriers low high) } := by
  unfold calibrateFinish
  cases ha : analyse s.params s.cfg.fs minFreq (mono chunk) with
  | failed cause =>
    exact .inl ⟨cause, rfl, by cases ovf <;> simp [State.report, State.call]⟩
  | pair low high =>
    exact .inr ⟨low, high, rfl, by cases ovf <;> simp [State.report, State.call, State.outRes]⟩

/-- The read of CALIBRATE waits, or finishes with the capture it gets. -/
theorem calibrateRead_cases (count : Nat) (minFreq : Rat) (s : State) :
    (s.mic.frames.length < count ∧
      calibrateRead count minFreq s = { s with busy := some (.calibrate count minFreq) }) ∨
      (count ≤ s.mic.frames.length ∧ calibrateRead count minFreq s =
        calibrateFinish minFreq (s.mic.frames.take count) s.mic.ovf { s with
          mic := ⟨s.mic.frames.drop count, false⟩, calls := s.calls ++ [.captureRead count], busy := none }) := by
  unfold calibrateRead
  rcases captureRead_cases s count with ⟨hl, h⟩ | ⟨hl, h⟩ <;> rw [h]
  · exact .inl ⟨hl, rfl⟩
  · exact .inr ⟨hl, rfl⟩

end Sys2Proof.Machine
end

