-- ==== Sys2Proof/Tests/Slice0.lean ====
section
/-! SUPPORT. Tests with expected values from 95_test_vectors.md (V1 to V42), words written from 30_encoding.md R83,
ill-formed terms for each check, and a witness for the hypotheses of every statement that has some. -/

namespace Sys2Proof.Tests

set_option Elab.async false

open Sys2Proof Sys2Proof.Machine

/-! ### Helpers -/

/-- The `n` bits of `w`, most significant first. -/
def seq (n w : Nat) : Bits := (List.range n).map fun i => w.testBit (n - 1 - i)

/-- The state an outcome gives (the reset state for an outcome that gives none). -/
def after (o : Host.Outcome State Fault Refusal) : State :=
  match o with
  | .next t => t
  | .fault _ | .refused _ => State.reset

/-- A sequence of rational samples. -/
def nums (l : List Rat) : List Sample := l.map Sample.ofRat

/-- A chunk of rational samples. -/
def frames (c : List (List Rat)) : Chunk := c.map nums

/-- A numerics that is known: half to even, chunks of 8 sample frames, the periodic window, and the rows of V13 and
V15 (`0.7071` as 7071/10000), with those of the two-sample chunks used in witnesses. -/
def known : Params :=
  { sampleDom := .rational, magnDom := .rational, roundTie := .halfEven, chunkLen := .fixed 6, hannDenom := .periodic, calCountRound := .refuse
    quant := [((0, 0), 0), ((1, 1 / 8), 7071 / 10000), ((1, 1 / 4), 1), ((1, 3 / 8), 7071 / 10000), ((1, 3 / 4), -1)]
    magn := [(nums [0, 1, 0, -1, 0, 1, 0, -1], [0, 1, 2, 1, 0]), (nums [1, 1], [1, 1]), (nums [2, 2], [2, 2])] }

/-- The small configuration of V13. -/
def small : ModemConfig := ⟨8, 1 / 2, 1, 2, 1 / 4, 1⟩

/-- A configuration in which the chunk of V15 (2000 Hz at 8000 samples a second) is ZERO. -/
def audible : ModemConfig := ⟨8000, 1 / 10, 2000, 1000, 300, 1⟩

/-- The chunk of V15, one channel. -/
def v15 : Chunk := frames [[0], [1], [0], [-1], [0], [1], [0], [-1]]

/-- A state with the known numerics and the small configuration. -/
def base : State := { State.reset with cfg := small, params := known }

/-- `base` with operands. -/
def withBits (s : State) (b : Bits) : State := { s with ports := { s.ports with bits := b } }
def withBytes (s : State) (p : Bytes) : State := { s with ports := { s.ports with bytes := p } }
def withSamp (s : State) (c : Chunk) : State := { s with ports := { s.ports with samp := c } }
def withFreq (s : State) (f : Rat) : State := { s with ports := { s.ports with freq := f } }
def withCfgin (s : State) (c : ModemConfig) : State := { s with ports := { s.ports with cfgin := c } }
def withCalin (s : State) (w f : Rat) : State := { s with ports := { s.ports with calin := ⟨w, f⟩ } }

/-- A receive loop that runs, with the buffer `b`, at 8000 samples a second. -/
def loop (b : Bits) : State := { base with cfg := audible, rxRun := true, bitbuf := b }

/-- `s` with the word `w` issued. -/
def issue (s : State) (w : Byte) : State := { s with cmd := [⟨w, s.ports⟩] }

/-- `s` with the frames of `c` delivered by the capture collaborator and its overflow flag `o`. -/
def delivered (s : State) (c : Chunk) (o : Bool) : State := { s with mic := ⟨c, o⟩ }

/-- `s` with the level of RESET asserted. -/
def inReset (s : State) : State := { s with now := { s.now with reset := true } }

/-- `s` with a capture that cannot be opened. -/
def noCapture (s : State) : State := { s with now := { s.now with canOpen := false } }

/-- The "HI" frame of V19. -/
def hi : Bits := seq 40 0b1111111001001000010010010000000101111111

/-! ### Well-formedness: each check refuses an ill-formed term -/

theorem test_wf_opcode_zero : WordLegal 0x00#8 = false := by decide
theorem test_wf_opcode_fifteen : WordLegal 0xF0#8 = false := by decide
theorem test_wf_tone_argument : WordLegal 0x22#8 = false ∧ WordLegal 0x28#8 = false := by decide
theorem test_wf_argument : WordLegal 0x51#8 = false ∧ WordLegal 0xA1#8 = false ∧ WordLegal 0xD8#8 = false := by decide
theorem test_wf_ragged_chunk : ChunkWellFormed (frames [[0, 0], [0]]) = false := by decide
theorem test_wf_accepts : WordLegal 0x21#8 = true ∧ ChunkWellFormed (frames [[0, 0], [1, 1]]) = true := by decide

/-! ### Decoding: every command's word, written from R83 -/

theorem test_decode_cfgload : decodeTableWord 8 0b00010000 = some .cfgload := by decide
theorem test_decode_tone :
    decodeTableWord 8 0b00100000 = some (.tone false) ∧ decodeTableWord 8 0b00100001 = some (.tone true) := by decide
theorem test_decode_domfreq : decodeTableWord 8 0b00110000 = some .domfreq := by decide
theorem test_decode_classify : decodeTableWord 8 0b01000000 = some .classify := by decide
theorem test_decode_frame : decodeTableWord 8 0b01010000 = some .frame := by decide
theorem test_decode_deframe : decodeTableWord 8 0b01100000 = some .deframe := by decide
theorem test_decode_calibrate : decodeTableWord 8 0b01110000 = some .calibrate := by decide
theorem test_decode_modulate : decodeTableWord 8 0b10000000 = some .modulate := by decide
theorem test_decode_encode : decodeTableWord 8 0b10010000 = some .encode := by decide
theorem test_decode_feed : decodeTableWord 8 0b10100000 = some .feed := by decide
theorem test_decode_scan : decodeTableWord 8 0b10110000 = some .scan := by decide
theorem test_decode_rxstart : decodeTableWord 8 0b11000000 = some .rxstart := by decide
theorem test_decode_rxchunk : decodeTableWord 8 0b11010000 = some .rxchunk := by decide
theorem test_decode_rxstop : decodeTableWord 8 0b11100000 = some .rxstop := by decide
/-- V42. -/
theorem test_decode_illegal :
    [0x00, 0x0F, 0xF0, 0xFF, 0x22, 0x28, 0x51, 0xA1, 0xD8].map (decodeTableWord 8) = List.replicate 9 none := by decide
/-- R83: the 15 legal words are all there are. -/
theorem test_decode_count : ((List.range 256).filter fun w => (decodeTableWord 8 w).isSome).length = 15 := by decide

/-! ### The commands -/

/-- V38: `tol=500` fails condition 8, and is fatal. -/
theorem test_cfgload_tol :
    let t := after (exec .cfgload (withCfgin State.reset { resetConfig with tol := 500 }))
    t.evt = [.configError 8] ∧ t.fatal = true ∧ t.cfg = resetConfig := by decide +kernel
/-- V38: `fs=0, amp=2` names the first failing condition; `tol=499` is accepted. -/
theorem test_cfgload_first :
    (after (exec .cfgload (withCfgin State.reset { resetConfig with fs := 0, amp := 2 }))).evt = [.configError 1] ∧
      (after (exec .cfgload (withCfgin State.reset { resetConfig with tol := 499 }))).cfg.tol = 499 := by
  decide +kernel

/-- V13. -/
theorem test_tone_zero :
    (after (exec (.tone false) base)).wave = some ⟨nums [0, 7071 / 10000, 1, 7071 / 10000], 8⟩ := by decide +kernel
/-- V13 in the ideal domain, where `Quant` is the identity: `sin(2π/4)` and `sin(2π*3/4)` as they stand. -/
theorem test_tone_one :
    (after (exec (.tone true) base)).wave = some ⟨nums [0, 1, 0, -1], 8⟩ ∧
      (after (exec (.tone true) { base with params := { known with sampleDom := .ideal } })).wave =
        some ⟨[Sample.zero, Sample.ofSine 1 (1 / 4), Sample.zero, Sample.ofSine 1 (3 / 4)], 8⟩ := by decide +kernel

/-- V15, periodic window; and with Magn ideal, where what stands on SPEC is the sums of R108 themselves. -/
theorem test_domfreq_mono :
    let t := after (exec .domfreq (withSamp { base with cfg := audible } v15))
    let u := after (exec .domfreq
      (withSamp { base with cfg := audible, params := { known with magnDom := .ideal } } v15))
    t.res = some (.frequency 2000) ∧
      t.spec = some ⟨[0, 1000, 2000, 3000, 4000], [0, 1, 2, 1, 0].map .rational⟩ ∧
      u.res = some (.frequency 2000) ∧
      u.spec = some ⟨[0, 1000, 2000, 3000, 4000],
        (List.range 5).map fun k => .absSum ((List.range 8).map fun n =>
          ⟨Sample.ofRat ([0, 1, 0, -1, 0, 1, 0, -1].getD n 0), (n : Rat) / 8, (k : Rat) * n / 8⟩)⟩ := by
  decide +kernel
/-- V17: the two-channel chunk with the mono mean of V15; a chunk of one sample frame. -/
theorem test_domfreq_stereo :
    (after (exec .domfreq (withSamp { base with cfg := audible }
      (frames [[0, 0], [2, 0], [0, 0], [-2, 0], [0, 0], [2, 0], [0, 0], [-2, 0]])))).res = some (.frequency 2000) ∧
      (after (exec .domfreq (withSamp base (frames [[1]])))).evt = [.operandError 0x30#8] := by decide +kernel

/-- R66 where the samples are no rationals: the mean of two outside values, and of a sine and its opposite. -/
theorem test_mono_ideal :
    mono [[⟨0, [], [(0, 1)]⟩, ⟨0, [], [(1, 1)]⟩], [Sample.ofSine 1 (1 / 8), Sample.ofSine (-1) (1 / 8)]] =
      [⟨0, [], [(0, 1 / 2), (1, 1 / 2)]⟩, Sample.zero] := by decide +kernel

/-- V20. -/
theorem test_classify_defaults :
    [17699, 17700, 18300, 18301, 36601 / 2, 18699, 18700, 19300, 19301, 0].map (classify resetConfig) =
      [none, some false, some false, none, none, none, some true, some true, none, none] := by decide +kernel
/-- V6. -/
theorem test_classify_boundary :
    (after (exec .classify (withFreq { base with cfg := ⟨48000, 1 / 10, 18000, 18601, 300, 1⟩ } 18301))).res =
      some (.classified (some true)) := by decide +kernel

/-- V19. -/
theorem test_frame_hi : (after (exec .frame (withBytes base [0x48#8, 0x49#8]))).res = some (.framed hi) := by
  decide +kernel
theorem test_frame_empty :
    (after (exec .frame (withBytes base []))).res = some (.framed (seq 24 0b111111100000000001111111)) := by
  decide +kernel

/-- V21. -/
theorem test_deframe_bad_checksum :
    (after (exec .deframe (withBits base (seq 24 0b010010000100100100000000)))).res =
      some (.deframed [0x48#8, 0x49#8] false) := by decide +kernel
theorem test_deframe_unaligned :
    let t := after (exec .deframe (withBits base (seq 7 0b0100100)))
    t.res = none ∧ t.evt = [.unalignedBody 7] := by decide +kernel

/-- V22 (a), with the magnitudes of the periodic window of V15: `k1 = 2`, bins 1 and 3 tie. -/
theorem test_calibrate_pair :
    let t := after (exec .calibrate (delivered (withCalin { base with cfg := audible } (1 / 1000) 1000) v15 true))
    t.res = some (.carriers 1000 2000) ∧ t.evt = [.captureOverflow] ∧
      t.calls = [.captureOpen true, .captureRead 8, .captureClose] := by decide +kernel
/-- V22 (b) and (d). -/
theorem test_calibrate_fails :
    (after (exec .calibrate (delivered (withCalin { base with cfg := audible } (1 / 1000) 4000) v15 false))).evt =
      [.calibrationError .tooFewBins] ∧
    (after (exec .calibrate (delivered (withCalin { base with cfg := { small with fs := 4 } } 4 0)
      (List.replicate 16 [Sample.zero]) false))).evt = [.calibrationError .degenerate] := by decide +kernel

/-- V23. -/
theorem test_modulate :
    (after (exec .modulate (withBits base [false, true]))).wave =
      some ⟨nums [0, 7071 / 10000, 1, 7071 / 10000, 0, 1, 0, -1], 8⟩ ∧
    (after (exec .modulate (withBits base []))).wave = some ⟨[], 8⟩ := by decide +kernel

/-- V23: `ENCODE []` is 24 symbols, and what MODULATE gives for the frame of V19. -/
theorem test_encode :
    let w := (after (exec .encode (withBytes base []))).wave
    w.map (·.samples.length) = some 96 ∧
      w = (after (exec .modulate (withBits base (seq 24 0b111111100000000001111111)))).wave := by decide +kernel

/-- V25. -/
theorem test_feed_false_end :
    let t := after (exec .feed (withBits base (seq 40 0b1111111000000001111111111111111001111111)))
    t.evt = [.unalignedBody 6, .emptyBody] ∧ t.bitbuf = [] := by decide +kernel
/-- V30 and the junk of V32: two frames and a tail. -/
theorem test_feed_two_frames :
    let t := after (exec .feed (withBits base (seq 76
      0b1111111001000001010000010111111111111110010000100100001100000001011111111111)))
    t.evt = [.frameOk [0x41#8], .frameOk [0x42#8, 0x43#8]] ∧ t.bitbuf = seq 4 0b1111 := by decide +kernel

/-- V29, second row. -/
theorem test_scan_no_start :
    let t := after (exec .scan { base with bitbuf := seq 9 0b110011111 })
    t.res = some (.scanned none) ∧ t.bitbuf = seq 7 0b0011111 := by decide +kernel
/-- V29, last row. -/
theorem test_scan_body :
    let t := after (exec .scan { base with bitbuf := seq 36 0b001111111001000001010000010111111110 })
    t.res = some (.scanned (some (seq 16 0b0100000101000001, seq 2 0b10))) ∧ t.bitbuf = seq 2 0b10 := by
  decide +kernel

/-- V35. -/
theorem test_rxstart :
    let t := after (exec .rxstart { base with bitbuf := [true] })
    t.rxRun = true ∧ t.bitbuf = [] ∧ t.evt = [] := by decide +kernel
theorem test_rxstart_fails :
    let t := after (exec .rxstart (noCapture base))
    t.evt = [.resourceError] ∧ t.fatal = true ∧ t.rxRun = false := by decide +kernel

/-- V36, with the chunk of V15 and an overflow: ZERO completes the START marker. -/
theorem test_rxchunk :
    let t := after (exec .rxchunk (delivered (loop (seq 7 0b1111111)) v15 true))
    t.bitbuf = seq 8 0b11111110 ∧ t.evt = [.captureOverflow] ∧ t.mic = ⟨[], false⟩ := by decide +kernel
/-- V37. -/
theorem test_rxchunk_abort :
    let t := after (exec .rxchunk ((delivered (loop (seq 12 0b111111100100)) v15 false).setAbort true))
    t.evt = [.interrupted] ∧ t.bitbuf = [] ∧ t.rxRun = false ∧ t.fatal = false ∧ t.mic.frames = v15 := by
  decide +kernel

/-- V35. -/
theorem test_rxstop :
    let t := after (exec .rxstop (loop (seq 8 0b11111110)))
    t.rxRun = false ∧ t.bitbuf = [] ∧ t.evt = [] ∧ (after (exec .rxstop t)).evt = [.commandError 0xE0#8] := by
  decide +kernel

/-- V41: the word 0x00 while FATAL is 1, and RESET. -/
theorem test_step_fatal_then_reset :
    let s := issue { base with fatal := true } 0x00#8
    (after (step s)).evt = [.commandError 0x00#8] ∧ (after (step (inReset s))).fatal = false ∧
      (after (step (inReset s))).cfg = resetConfig := by decide +kernel

/-- V39: what `Post` answers is what is delivered. -/
theorem test_step_post :
    (after (step { issue (withBits base hi) 0xA0#8 with post := [.gives [0x68#8, 0x69#8]] })).evt =
      [.frameOk [0x68#8, 0x69#8]] := by decide +kernel

/-- The first step after reset runs the word that stands where commands are taken. -/
theorem test_withFetchWord :
    (after (step (State.reset.withFetchWord 8 0x50))).res = some (.framed (seq 24 0b111111100000000001111111)) := by
  decide +kernel

/-! ### Witnesses: for each statement that has hypotheses, states and operands that meet them together

A state that stands for `t` in `exec i s = .next t` is given by `after`. -/

/-- `after` gives the state of a command. -/
theorem exec_after (i : Instr) (s : State) : exec i s = .next (after (exec i s)) := by cases i <;> rfl

/-- An event-free command in the queue of a state that can take it. -/
theorem takes_issue : (issue base 0xA0#8).Takes ⟨0xA0#8, base.ports⟩ [] := ⟨rfl, rfl, rfl⟩

theorem witness_ResetInputRestoresTheState :
    (inReset (loop [true])).now.reset = true ∧
      step (inReset { base with fatal := true }) = .next (after (step (inReset { base with fatal := true }))) ∧
      (after (step (inReset { base with fatal := true }))).fatal = false := ⟨rfl, rfl, rfl⟩

theorem witness_IllegalWordIsRefused :
    (issue base 0x0F#8).Takes ⟨0x0F#8, base.ports⟩ [] ∧ decode 0x0F#8 = .error .reservedOpcode ∧
      (issue base 0xF0#8).Takes ⟨0xF0#8, base.ports⟩ [] ∧ decode 0xF0#8 = .error .reservedOpcode ∧
      (issue base 0x22#8).Takes ⟨0x22#8, base.ports⟩ [] ∧ decode 0x22#8 = .error .argumentBits ∧
      (issue base 0x51#8).Takes ⟨0x51#8, base.ports⟩ [] ∧ decode 0x51#8 = .error .argumentBits :=
  ⟨⟨rfl, rfl, rfl⟩, rfl, ⟨rfl, rfl, rfl⟩, rfl, ⟨rfl, rfl, rfl⟩, rfl, ⟨rfl, rfl, rfl⟩, rfl⟩

theorem witness_StepRunsTheDecodedCommand :
    (issue base 0xA0#8).Takes ⟨0xA0#8, base.ports⟩ [] ∧ decode 0xA0#8 = .ok .feed := ⟨takes_issue, rfl⟩

theorem witness_EveryStepHasANextState :
    State.reset.now.reset = false ∧ State.reset.busy = none ∧ State.reset.cmd = [] := ⟨rfl, rfl, rfl⟩

theorem witness_FatalRefusesEveryWord :
    (issue { base with fatal := true } 0x21#8).Takes ⟨0x21#8, base.ports⟩ [] ∧
      (issue { base with fatal := true } 0x21#8).fatal = true ∧
      step (issue { base with fatal := true } 0x21#8) =
        .next (after (step (issue { base with fatal := true } 0x21#8))) := ⟨⟨rfl, rfl, rfl⟩, rfl, rfl⟩

theorem witness_CommandInTheWrongStateIsRefused :
    ({ base with fatal := true } : State).fatal = true ∧ base.rxRun = false ∧ (loop []).rxRun = true := ⟨rfl, rfl, rfl⟩

theorem witness_FatalErrorReleasesAndSticks :
    (loop [true]).rxRun = true ∧ (loop [true]).fatal = false ∧ base.rxRun = false ∧
      exec .cfgload (loop [true]) = .next (after (exec .cfgload (loop [true]))) := ⟨rfl, rfl, rfl, rfl⟩

theorem witness_CfgloadWritesAllOrNone :
    base.fatal = false ∧ base.rxRun = false ∧ configValid base.ports.cfgin = true ∧ (loop []).rxRun = true ∧
      configValid (withCfgin base { resetConfig with tol := 500 }).ports.cfgin = false := by decide +kernel

theorem witness_ConfigErrorNamesTheFirstFailingCondition :
    base.fatal = false ∧ base.rxRun = false ∧
      firstFailing (withCfgin base { resetConfig with fs := 0, amp := 2 }).ports.cfgin = some 1 ∧
      firstFailing (withCfgin base { resetConfig with tol := 500 }).ports.cfgin = some 8 := by decide +kernel

theorem witness_CfgChangesOnlyByCfgloadOrReset :
    step (issue base 0x10#8) = .next (after (step (issue base 0x10#8))) ∧
      (after (step (issue base 0x10#8))).cfg ≠ (issue base 0x10#8).cfg := ⟨rfl, by decide +kernel⟩

/-- V14: `round(0.4) = 0`, `round(2666.67) = 2667`. -/
theorem witness_RoundIsNearest :
    |((0 : Int) : Rat) - 2 / 5| < 1 / 2 ∧ |((2667 : Int) : Rat) - 8000 / 3| < 1 / 2 ∧ 0 < small.fs ∧ 0 < small.tbit := by
  decide +kernel

theorem witness_BitsAndByteOfAreInverse : (0 : Nat) < 8 ∧ (7 : Nat) < 8 ∧ (seq 8 0x48).length = 8 := by decide

theorem witness_ChecksumIsColumnParity : ([0x48#8, 0x49#8] : Bytes).Perm [0x49#8, 0x48#8] := List.Perm.swap _ _ _

theorem witness_MonoIsTheChannelMean :
    (frames [[2, 0]])[0]? = some (nums [2, 0]) ∧ 1 ≤ (nums [2, 0]).length := by decide +kernel

theorem witness_ToneDeliversTheSymbol :
    base.fatal = false ∧ 0 < nsym base.params base.cfg ∧ 3 < nsym base.params base.cfg := by decide +kernel

theorem witness_NumericArgumentsDenoteTheSpecReals :
    ({ small with amp := 0 } : ModemConfig).amp = 0 ∧ Sample.zero ∈ tone known { small with amp := 0 } true ∧
      ({ known with sampleDom := .ideal } : Params).sampleDom = .ideal ∧ (0 : Rat) ≤ small.amp ∧
      ({ known with magnDom := .ideal } : Params).magnDom = .ideal ∧ known.magnDom = .rational ∧
      ∀ v ∈ nums [0, 0], v = Sample.zero := by decide +kernel

theorem witness_DomfreqDeliversTheLeastGreatestBin :
    (withSamp base (frames [[1, 0], [0, 1]])).fatal = false ∧ 0 < base.cfg.fs ∧
      2 ≤ (withSamp base (frames [[1, 0], [0, 1]])).ports.samp.length ∧
      ∀ f ∈ (withSamp base (frames [[1, 0], [0, 1]])).ports.samp, 1 ≤ f.length := by decide +kernel

theorem witness_DomfreqRefusesAShortChunk :
    base.fatal = false ∧ (withSamp base (frames [[1]])).ports.samp.length < 2 ∧
      ∃ f ∈ (withSamp base [[], []]).ports.samp, f.length = 0 := by decide +kernel

theorem witness_SilenceIsZeroHz :
    base.fatal = false ∧ 2 ≤ (withSamp base (frames [[0], [0]])).ports.samp.length ∧
      ∀ f ∈ (withSamp base (frames [[0], [0]])).ports.samp, 1 ≤ f.length ∧ ∀ v ∈ f, v = Sample.zero := by decide +kernel

/-- No real number comes from outside. -/
def noEnv : Nat → ℝ := fun _ => 0

/-- Both bins of two equal samples have the magnitude of the sample under the periodic window: it is 0, 1. -/
theorem ideal_two_equal (env : Nat → ℝ) (p : Params) (v : Sample) (k : Nat) (hp : p.hannDenom = .periodic) :
    idealMagnitude env p [v, v] k = ‖((sampleValue env v : ℝ) : ℂ)‖ := by
  have h : idealHann 2 1 = 1 := by unfold idealHann; norm_num
  have h0 : idealHann 2 0 = 0 := by unfold idealHann; norm_num
  unfold idealMagnitude hannDenom
  simp only [hp, List.length_cons, List.length_nil, Finset.sum_range_succ, Finset.sum_range_zero, h, h0, zero_add]
  simp only [List.getD_cons_zero, List.getD_cons_succ, Complex.ofReal_zero, mul_zero, zero_mul, zero_add, mul_one]
  rw [norm_mul, Complex.norm_exp]
  simp

theorem ideal_on_two_equal (env : Nat → ℝ) (p : Params) (v : Sample) (hp : p.hannDenom = .periodic)
    (hm : magnKey p [v, v] 0 = magnKey p [v, v] 1) : MagnIdealOn env p [v, v] := by
  intro j k hj hk
  rw [ideal_two_equal env p v j hp, ideal_two_equal env p v k hp]
  have hj' : j = 0 ∨ j = 1 := by simp at hj; omega
  have hk' : k = 0 ∨ k = 1 := by simp at hk; omega
  rcases hj' with rfl | rfl <;> rcases hk' with rfl | rfl <;> simp [hm]

theorem mono_ones : mono (frames [[1], [1]]) = [Sample.ofRat 1, Sample.ofRat 1] := by decide +kernel
theorem mono_twos : mono (frames [[2], [2]]) = [Sample.ofRat 2, Sample.ofRat 2] := by decide +kernel

theorem witness_ConstantChunkIsZeroHz :
    base.fatal = false ∧ 2 ≤ (withSamp base (frames [[1], [1]])).ports.samp.length ∧
      (∀ f ∈ (withSamp base (frames [[1], [1]])).ports.samp, 1 ≤ f.length) ∧
      (∀ x ∈ mono (withSamp base (frames [[1], [1]])).ports.samp, sampleValue noEnv x = 1) ∧
      MagnIdealOn noEnv (withSamp base (frames [[1], [1]])).params
        (mono (withSamp base (frames [[1], [1]])).ports.samp) := by
  refine ⟨rfl, by decide +kernel, by decide +kernel, ?_, ?_⟩
  · change ∀ x ∈ mono (frames [[1], [1]]), _
    rw [mono_ones]
    simp [sampleValue, Sample.ofRat]
  · change MagnIdealOn noEnv known (mono (frames [[1], [1]]))
    rw [mono_ones]
    exact ideal_on_two_equal noEnv known _ rfl (by decide +kernel)

/-- The premise of the clause of DomfreqDeliversTheLeastGreatestBin about ideal arithmetic. -/
theorem witness_DomfreqDeliversTheLeastGreatestBin_ideal :
    (withSamp base (frames [[1], [1]])).fatal = false ∧ 0 < base.cfg.fs ∧
      2 ≤ (withSamp base (frames [[1], [1]])).ports.samp.length ∧
      (∀ f ∈ (withSamp base (frames [[1], [1]])).ports.samp, 1 ≤ f.length) ∧
      MagnIdealOn noEnv (withSamp base (frames [[1], [1]])).params
        (mono (withSamp base (frames [[1], [1]])).ports.samp) :=
  ⟨rfl, by decide +kernel, by decide +kernel, by decide +kernel, witness_ConstantChunkIsZeroHz.2.2.2.2⟩

theorem witness_ScaleLeavesTheDominantFrequency :
    (2 : ℝ) ≠ 0 ∧
      List.Forall₂ (List.Forall₂ fun v w => sampleValue noEnv w = 2 * sampleValue noEnv v)
        (frames [[1], [1]]) (frames [[2], [2]]) ∧
      MagnIdealOn noEnv known (mono (frames [[1], [1]])) ∧ MagnIdealOn noEnv known (mono (frames [[2], [2]])) := by
  refine ⟨by norm_num, ?_, witness_ConstantChunkIsZeroHz.2.2.2.2, ?_⟩
  · simp [frames, nums, sampleValue, Sample.ofRat]
  · rw [mono_twos]
    exact ideal_on_two_equal noEnv known _ rfl (by decide +kernel)

/-- The ends of both windows at the defaults, and one Hz outside. -/
theorem witness_ClassifyTestsTheClosedWindows :
    State.reset.fatal = false ∧ |(18300 : Rat) - State.reset.cfg.f0| ≤ State.reset.cfg.tol ∧
      (¬ |(18700 : Rat) - State.reset.cfg.f0| ≤ State.reset.cfg.tol ∧
        |(18700 : Rat) - State.reset.cfg.f1| ≤ State.reset.cfg.tol) ∧
      ¬ |(18301 : Rat) - State.reset.cfg.f0| ≤ State.reset.cfg.tol ∧
      ¬ |(18301 : Rat) - State.reset.cfg.f1| ≤ State.reset.cfg.tol := by decide +kernel

theorem witness_ClassifyBoundaries : configValid ⟨48000, 1 / 10, 18000, 18601, 300, 1⟩ = true := by decide +kernel

theorem witness_FrameHasTheOnAirLayout :
    (withBytes base [0x48#8, 0x49#8]).fatal = false ∧ 0 < (withBytes base [0x48#8, 0x49#8]).ports.bytes.length ∧
      1 < (withBytes base [0x48#8, 0x49#8]).ports.bytes.length := by decide +kernel

theorem witness_DeframeDeliversPayloadAndFlag :
    (withBits base (seq 8 0)).fatal = false ∧ (withBits base (seq 8 0)).ports.bits.length = 8 * (0 + 1) ∧
      (withBits base (seq 24 0x484901)).ports.bits.length = 8 * (2 + 1) := by decide +kernel

theorem witness_DeframeRefusesUnalignedAndEmpty :
    base.fatal = false ∧ (withBits base (seq 7 0)).ports.bits.length % 8 ≠ 0 ∧ (withBits base []).ports.bits = [] := by
  decide +kernel

theorem witness_DeframeUndoesFrame :
    base.fatal = false ∧ exec .frame { base with ports := { base.ports with bytes := [0x48#8] } } =
      .next { base with ports := { base.ports with bytes := [0x48#8] }, res := some (.framed (frameBits [0x48#8])) } :=
  ⟨rfl, rfl⟩

/-- The body of "HI" with its first bit flipped, with its last bit flipped, and with two flips in one column (V40). -/
theorem witness_ChecksumSeesSingleFlips :
    let B := bitsOf [0x48#8, 0x49#8] ++ bits (xorfold [0x48#8, 0x49#8])
    base.fatal = false ∧ 0 < B.length ∧ (withBits base (seq 24 0xC84901)).ports.bits = B.modify 0 (!·) ∧
      23 < B.length ∧ (withBits base (seq 24 0x484900)).ports.bits = B.modify 23 (!·) ∧ 8 < B.length ∧
      (withBits base (seq 24 0xC8C901)).ports.bits = (B.modify 0 (!·)).modify 8 (!·) := by decide +kernel

theorem witness_ModulateConcatenatesTones :
    let s := withBits base [false, true]
    s.fatal = false ∧ 7 < s.ports.bits.length * nsym s.params s.cfg ∧
      exec (.tone (s.ports.bits.getD (7 / nsym s.params s.cfg) false)) s =
        .next (after (exec (.tone (s.ports.bits.getD (7 / nsym s.params s.cfg) false)) s)) ∧
      (after (exec (.tone (s.ports.bits.getD (7 / nsym s.params s.cfg) false)) s)).wave = some ⟨nums [0, 1, 0, -1], 8⟩ :=
  ⟨rfl, by decide +kernel, rfl, by decide +kernel⟩

theorem witness_EncodeIsFrameThenModulate : base.fatal = false := rfl

/-- The three ways an operand is refused, a capture that cannot be opened, and one that is not there yet. -/
theorem witness_CalibrateRefusesFailsOrWaits :
    base.fatal = false ∧ base.rxRun = false ∧ (withCalin base 0 0).ports.calin.windowSeconds ≤ 0 ∧
      (withCalin base 1 (-1)).ports.calin.minFreq < 0 ∧ sampleCount base.params (base.cfg.fs * (1 / 16)) = none ∧
      sampleCount base.params (base.cfg.fs * (withCalin base 1 0).ports.calin.windowSeconds) = some 8 ∧
      (noCapture (withCalin base 1 0)).now.canOpen = false ∧ (withCalin base 1 0).now.canOpen = true ∧
      (withCalin base 1 0).mic.frames.length < 8 := by decide +kernel

/-- A bin that is the first of greatest magnitude among the bins up to `n` that `P` keeps. -/
theorem leastGreatest_of_list {mag : Nat → Rat} {bins : Nat → Prop} [DecidablePred bins] {k : Nat} (n : Nat)
    (hn : ∀ j, bins j → j < n) (hk : bins k)
    (h : ∀ j, j < n → bins j → mag j ≤ mag k ∧ (j < k → mag j < mag k)) : LeastGreatest mag bins k :=
  ⟨hk, fun j hj => (h j (hn j hj) hj).1, fun j hj => (h j (hn j hj) hj).2⟩

/-- The hypotheses of a calibration whose capture is there, in the three outcomes: two bins that round apart (V22 a),
two bins that round alike (V22 d), one bin (V22 b). -/
theorem witness_CalibrateDeliversTheTwoGreatestBins_hypotheses :
    let a := delivered (withCalin { base with cfg := audible } (1 / 1000) 1000) v15 true
    let d := delivered (withCalin { base with cfg := { small with fs := 4 } } 4 0) (List.replicate 16 [Sample.zero]) false
    (a.fatal = false ∧ a.rxRun = false ∧ 0 < a.ports.calin.windowSeconds ∧ 0 ≤ a.ports.calin.minFreq ∧
        sampleCount a.params (a.cfg.fs * a.ports.calin.windowSeconds) = some 8 ∧ a.now.canOpen = true ∧
        8 ≤ a.mic.frames.length) ∧
      d.fatal = false ∧ d.rxRun = false ∧ 0 < d.ports.calin.windowSeconds ∧ 0 ≤ d.ports.calin.minFreq ∧
        sampleCount d.params (d.cfg.fs * d.ports.calin.windowSeconds) = some 16 ∧ d.now.canOpen = true ∧
        16 ≤ d.mic.frames.length := by decide +kernel

theorem witness_CalibrateDeliversTheTwoGreatestBins_apart :
    LeastGreatest (magnKey known (mono (v15.take 8)))
        (fun k => k ≤ 8 / 2 ∧ (1000 : Rat) ≤ (k : Rat) * 8000 / ((8 : Nat) : Rat)) 2 ∧
      LeastGreatest (magnKey known (mono (v15.take 8)))
        (fun k => (k ≤ 8 / 2 ∧ (1000 : Rat) ≤ (k : Rat) * 8000 / ((8 : Nat) : Rat)) ∧ k ≠ 2) 1 ∧
      roundQ .halfEven (((2 : Nat) : Rat) * 8000 / ((8 : Nat) : Rat)) ≠
        roundQ .halfEven (((1 : Nat) : Rat) * 8000 / ((8 : Nat) : Rat)) :=
  ⟨leastGreatest_of_list 5 (fun j h => by omega) (by decide +kernel) (by decide +kernel),
    leastGreatest_of_list 5 (fun j h => by omega) (by decide +kernel) (by decide +kernel), by decide +kernel⟩

theorem witness_CalibrateDeliversTheTwoGreatestBins_alike :
    LeastGreatest (magnKey known (mono (List.replicate 16 [Sample.zero])))
        (fun k => k ≤ 16 / 2 ∧ (0 : Rat) ≤ (k : Rat) * 4 / ((16 : Nat) : Rat)) 0 ∧
      LeastGreatest (magnKey known (mono (List.replicate 16 [Sample.zero])))
        (fun k => (k ≤ 16 / 2 ∧ (0 : Rat) ≤ (k : Rat) * 4 / ((16 : Nat) : Rat)) ∧ k ≠ 0) 1 ∧
      roundQ .halfEven (((0 : Nat) : Rat) * 4 / ((16 : Nat) : Rat)) =
        roundQ .halfEven (((1 : Nat) : Rat) * 4 / ((16 : Nat) : Rat)) :=
  ⟨leastGreatest_of_list 9 (fun j h => by omega) (by decide +kernel) (by decide +kernel),
    leastGreatest_of_list 9 (fun j h => by omega) (by decide +kernel) (by decide +kernel), by decide +kernel⟩

theorem witness_CalibrateDeliversTheTwoGreatestBins_tooFew :
    ∀ k1 k2 : Nat, k1 ≤ 8 / 2 → k2 ≤ 8 / 2 → (4000 : Rat) ≤ (k1 : Rat) * 8000 / ((8 : Nat) : Rat) →
      (4000 : Rat) ≤ (k2 : Rat) * 8000 / ((8 : Nat) : Rat) → k1 = k2 := by
  have h : ∀ k : Nat, k < 5 → (4000 : Rat) ≤ (k : Rat) * 8000 / ((8 : Nat) : Rat) → k = 4 := by decide +kernel
  intro k1 k2 h1 h2 h3 h4
  rw [h k1 (by omega) h3, h k2 (by omega) h4]

/-- The clause of a calibration about ideal arithmetic: a capture of two equal samples, whose two bins have equal real
magnitudes and lie 4 Hz apart. -/
theorem witness_CalibrateDeliversTheTwoGreatestBins_ideal :
    let s := delivered (withCalin base (1 / 4) 0) (frames [[1], [1]]) false
    let x := mono (frames [[1], [1]])
    (s.fatal = false ∧ s.rxRun = false ∧ 0 < s.ports.calin.windowSeconds ∧ 0 ≤ s.ports.calin.minFreq ∧
      sampleCount s.params (s.cfg.fs * s.ports.calin.windowSeconds) = some 2 ∧ s.now.canOpen = true ∧
      2 ≤ s.mic.frames.length ∧ s.mic.frames.take 2 = frames [[1], [1]]) ∧
    MagnIdealOn noEnv known x ∧
    LeastGreatest (idealMagnitude noEnv known x)
      (fun k => k ≤ 2 / 2 ∧ (0 : Rat) ≤ (k : Rat) * 8 / ((2 : Nat) : Rat)) 0 ∧
    LeastGreatest (idealMagnitude noEnv known x)
      (fun k => (k ≤ 2 / 2 ∧ (0 : Rat) ≤ (k : Rat) * 8 / ((2 : Nat) : Rat)) ∧ k ≠ 0) 1 ∧
    roundQ .halfEven (((0 : Nat) : Rat) * 8 / ((2 : Nat) : Rat)) ≠
      roundQ .halfEven (((1 : Nat) : Rat) * 8 / ((2 : Nat) : Rat)) := by
  dsimp only
  refine ⟨by decide +kernel, witness_ConstantChunkIsZeroHz.2.2.2.2, ?_, ?_, by decide +kernel⟩
  · rw [mono_ones]
    refine ⟨by decide +kernel, fun j _ => ?_, fun j _ hj => absurd hj (Nat.not_lt_zero j)⟩
    rw [ideal_two_equal _ _ _ _ rfl, ideal_two_equal _ _ _ _ rfl]
  · rw [mono_ones]
    refine ⟨by decide +kernel, fun j _ => ?_, fun j h hj => ?_⟩
    · rw [ideal_two_equal _ _ _ _ rfl, ideal_two_equal _ _ _ _ rfl]
    · exact absurd (Nat.lt_one_iff.mp hj) h.2

/-- A calibration that waits for 8 sample frames: one short, and the last one arriving. -/
theorem witness_CalibrateDeliversTheTwoGreatestBins_waiting :
    let w : State := { delivered { base with cfg := audible } (v15.take 7) true with busy := some (.calibrate 8 1000) }
    let u : State := { w with now := { w.now with arriving := frames [[-1]] } }
    w.now.reset = false ∧ w.busy = some (.calibrate 8 1000) ∧ (w.mic.frames ++ w.now.arriving).length < 8 ∧
      u.now.reset = false ∧ u.busy = some (.calibrate 8 1000) ∧ 8 ≤ (u.mic.frames ++ u.now.arriving).length ∧
      (after (step u)).res = some (.carriers 1000 2000) := by decide +kernel

theorem witness_CarrierPairIsOrdered :
    let s := issue (delivered (withCalin { base with cfg := audible } (1 / 1000) 1000) v15 true) 0x70#8
    step s = .next (after (step s)) ∧ (after (step s)).res = some (.carriers 1000 2000) := ⟨rfl, by decide +kernel⟩

/-- The three cases of R176: no START, START and no END, both (V29). -/
theorem witness_ScanMakesOneCall :
    base.fatal = false ∧ find (seq 9 0b110011111) START 0 = none ∧
      find (seq 16 0b0001111111001001) START 0 = some 3 ∧ find (seq 16 0b0001111111001001) END 11 = none ∧
      find (seq 36 0b001111111001000001010000010111111110) START 0 = some 2 ∧
      find (seq 36 0b001111111001000001010000010111111110) END 10 = some 26 := by decide +kernel

theorem witness_ScannedBodyStandsBetweenTheMarkers :
    scan1 (seq 16 0b1111111001111111) = (some [], []) ∧
      scan1 (seq 36 0b001111111001000001010000010111111110) = (some (seq 16 0b0100000101000001), seq 2 0b10) := by
  decide +kernel

theorem witness_FeedDrainsToTheEnd :
    base.fatal = false ∧ scan1 ({ base with bitbuf := seq 9 0b110011111 } : State).bitbuf = (none, seq 7 0b0011111) ∧
      scan1 ({ base with bitbuf := seq 16 0b1111111001111111 } : State).bitbuf = (some [], []) := by decide +kernel

/-- A body of 7 bits, an empty one, a wrong checksum, a `Post` that fails and one that answers (V5, V2, V39). -/
theorem witness_HandleChecksInOrder :
    (seq 7 0b0100100).length % 8 ≠ 0 ∧ seq 24 0x484900 = bitsOf [0x48#8, 0x49#8] ++ bits 0x00#8 ∧
      xorfold [0x48#8, 0x49#8] ≠ 0x00#8 ∧ seq 24 0x484901 = bitsOf [0x48#8, 0x49#8] ++ bits 0x01#8 ∧
      xorfold [0x48#8, 0x49#8] = 0x01#8 ∧
      (({ base with post := [.fails] } : State).post.headD .identity).apply [0x48#8, 0x49#8] = none ∧
      (base.post.headD .identity).apply [0x48#8, 0x49#8] = some [0x48#8, 0x49#8] := by decide +kernel

theorem witness_BufferEndsInNormalForm :
    base.fatal = false ∧ normalForm (loop (seq 7 0b1111111)).bitbuf = true ∧
      exec .rxchunk (loop (seq 7 0b1111111)) = .next (after (exec .rxchunk (loop (seq 7 0b1111111)))) ∧
      normalForm (seq 8 0b11111110) = true := ⟨rfl, by decide +kernel, rfl, by decide +kernel⟩

theorem witness_SplittingAFeedDoesNotMatter :
    let t := after (exec .feed (withBits base (seq 3 0b111)))
    let u := after (exec .feed (withBits t (seq 37 0b1111001001000010010010000000101111111)))
    base.fatal = false ∧ exec .feed { base with ports := { base.ports with bits := seq 3 0b111 } } = .next t ∧
      exec .feed { t with ports := { t.ports with bits := seq 37 0b1111001001000010010010000000101111111 } } =
        .next u := ⟨rfl, rfl, rfl⟩

/-- V3, and a frame that is open (V27). -/
theorem witness_IdleBufferIsBounded :
    base.fatal = false ∧
      find ((withBits base (seq 9 0b010110011)).bitbuf ++ (withBits base (seq 9 0b010110011)).ports.bits) START 0 =
        none ∧
      slice (loop (seq 8 0b11111110)).bitbuf 0 8 = START ∧ find (seq 8 0b11111110 ++ [false]) END 8 = none := by
  decide +kernel

/-- V31 with its last bit to come, and a bit that completes no END. -/
theorem witness_OneBitFeedsEmitAtTheEndMarker :
    base.fatal = false ∧ normalForm (seq 15 0b111111100111111) = true ∧ (withBits base [true]).ports.bits = [true] ∧
      seq 15 0b111111100111111 ++ [true] = START ++ [] ++ END ∧ normalForm ([] : Bits) = true ∧
      ¬ ∃ body, ([] : Bits) ++ [true] = START ++ body ++ END := by
  refine ⟨rfl, by decide +kernel, rfl, by decide +kernel, by decide +kernel, ?_⟩
  rintro ⟨body, h⟩
  have := congrArg List.length h
  simp at this
  omega

theorem witness_FeedOfAFrameDeliversThePayload :
    base.fatal = false ∧ formS (seq 3 0b111) = true ∧
      (withBits base (frameBits [0x48#8, 0x49#8])).ports.bits = frameBits [0x48#8, 0x49#8] ∧
      find (bodyOf [0x48#8, 0x49#8] ++ END) END 0 = some (bodyOf [0x48#8, 0x49#8]).length ∧
      find (bodyOf [] ++ END) END 0 = some (bodyOf []).length := by decide +kernel

theorem witness_RxstartEntersTheLoop :
    base.fatal = false ∧ base.rxRun = false ∧ base.now.canOpen = true ∧ (noCapture base).now.canOpen = false ∧
      (loop []).rxRun = true := by decide +kernel

theorem witness_RxstopLeavesTheLoop : (loop []).fatal = false ∧ (loop []).rxRun = true ∧ base.rxRun = false := by
  decide +kernel

/-- A chunk that classifies as ZERO (V36) and one that classifies as None: silence. -/
theorem witness_RxchunkProcessesOneChunk :
    let s := delivered (loop (seq 7 0b1111111)) v15 true
    let z := delivered (loop (seq 7 0b1111111)) (List.replicate 8 [Sample.zero]) false
    s.fatal = false ∧ s.rxRun = true ∧ s.now.abort = false ∧ chunkLen s.params s.cfg ≤ s.mic.frames.length ∧
      chunkLen z.params z.cfg ≤ z.mic.frames.length ∧
      classify s.cfg (domfreq s.params s.cfg.fs (mono (s.mic.frames.take (chunkLen s.params s.cfg)))) = some ZERO ∧
      classify z.cfg (domfreq z.params z.cfg.fs (mono (z.mic.frames.take (chunkLen z.params z.cfg)))) = none ∧
      domfreqOperandOk (s.mic.frames.take (chunkLen s.params s.cfg)) = true ∧
      (after (exec .domfreq (withSamp s (s.mic.frames.take (chunkLen s.params s.cfg))))).res =
        some (.frequency 2000) := by decide +kernel

/-- One sample frame short, and the last one arriving while RXCHUNK waits. -/
theorem witness_RxchunkWaitsForItsChunk :
    let s := delivered (loop []) (v15.take 7) false
    let w : State := { s with busy := some .rxchunk }
    let u : State := { w with now := { w.now with arriving := frames [[-1]] } }
    let z : State := { delivered (loop []) (List.replicate 8 [Sample.zero]) false with busy := some .rxchunk }
    s.fatal = false ∧ s.rxRun = true ∧ s.now.abort = false ∧ s.mic.frames.length < chunkLen s.params s.cfg ∧
      w.now.reset = false ∧ w.busy = some .rxchunk ∧
      (w.mic.frames ++ w.now.arriving).length < chunkLen w.params w.cfg ∧ u.now.reset = false ∧
      u.busy = some .rxchunk ∧ chunkLen u.params u.cfg ≤ (u.mic.frames ++ u.now.arriving).length ∧
      classify u.cfg (domfreq u.params u.cfg.fs
        (mono ((u.mic.frames ++ u.now.arriving).take (chunkLen u.params u.cfg)))) = some ZERO ∧
      z.now.reset = false ∧ z.busy = some .rxchunk ∧
      chunkLen z.params z.cfg ≤ (z.mic.frames ++ z.now.arriving).length ∧
      classify z.cfg (domfreq z.params z.cfg.fs
        (mono ((z.mic.frames ++ z.now.arriving).take (chunkLen z.params z.cfg)))) = none := by decide +kernel

theorem witness_AbortLeavesTheLoopCleanly :
    ((loop [true]).setAbort true).fatal = false ∧ ((loop [true]).setAbort true).rxRun = true ∧
      ((loop [true]).setAbort true).now.abort = true := by decide +kernel

theorem witness_AbortTouchesOnlyRxchunk :
    Instr.feed ≠ .rxchunk ∧ base.rxRun = false ∧ exec .rxchunk base = .next (after (exec .rxchunk base)) :=
  ⟨by decide, rfl, rfl⟩

theorem witness_RxRunChangesOnlyAsListed :
    (step (issue base 0xC0#8) = .next (after (step (issue base 0xC0#8))) ∧ base.rxRun = false ∧
        (after (step (issue base 0xC0#8))).rxRun = true) ∧
      step (issue (loop []) 0xE0#8) = .next (after (step (issue (loop []) 0xE0#8))) ∧ (loop []).rxRun = true ∧
        (after (step (issue (loop []) 0xE0#8))).rxRun = false := by
  refine ⟨⟨rfl, rfl, by decide +kernel⟩, rfl, rfl, by decide +kernel⟩

theorem witness_EvtIsAppendedAndNeverRead :
    step (issue base 0x00#8) = .next (after (step (issue base 0x00#8))) ∧ (issue base 0x00#8).now.reset = false ∧
      exec .deframe (withBits base []) = .next (after (exec .deframe (withBits base []))) ∧
      step (inReset base) = .next (after (step (inReset base))) ∧ (inReset base).now.reset = true :=
  ⟨rfl, rfl, rfl, rfl, rfl⟩

theorem witness_BitsEnterAtTheEndAndLeaveAtTheFront :
    exec .feed (withBits base hi) = .next (after (exec .feed (withBits base hi))) ∧ base.fatal = false ∧
      exec .feed { base with fatal := true } = .next (after (exec .feed { base with fatal := true })) :=
  ⟨rfl, rfl, rfl⟩

/-- A step in RESET, one that goes on with each waiting command, an idle one, one that takes an illegal word, and one
that runs FEED. -/
theorem witness_BitsEnterAtTheEndAndLeaveAtTheFront_step :
    let w : State := { loop [true] with busy := some .rxchunk }
    let c : State := { base with busy := some (.calibrate 8 0) }
    step (inReset base) = .next (after (step (inReset base))) ∧ (inReset base).now.reset = true ∧
      step w = .next (after (step w)) ∧ w.now.reset = false ∧ w.busy = some .rxchunk ∧
      step c = .next (after (step c)) ∧ c.now.reset = false ∧ c.busy = some (.calibrate 8 0) ∧
      step base = .next (after (step base)) ∧ base.now.reset = false ∧ base.busy = none ∧ base.cmd = [] ∧
      step (issue base 0x0F#8) = .next (after (step (issue base 0x0F#8))) ∧
      (issue base 0x0F#8).Takes ⟨0x0F#8, base.ports⟩ [] ∧ decode 0x0F#8 = .error .reservedOpcode ∧
      step (issue base 0xA0#8) = .next (after (step (issue base 0xA0#8))) ∧
      (issue base 0xA0#8).Takes ⟨0xA0#8, base.ports⟩ [] ∧ decode 0xA0#8 = .ok .feed :=
  ⟨rfl, rfl, rfl, rfl, rfl, rfl, rfl, rfl, rfl, rfl, rfl, rfl, rfl, ⟨rfl, rfl, rfl⟩, rfl, rfl, takes_issue, rfl⟩

theorem witness_ScannerNeverReadsCfg :
    exec .scan { base with bitbuf := hi } = .next (after (exec .scan { base with bitbuf := hi })) := rfl

theorem witness_CodecsIgnoreTheReceiveState :
    Instr.frame ≠ .cfgload ∧ Instr.frame ≠ .calibrate ∧ Instr.frame ≠ .feed ∧ Instr.frame ≠ .scan ∧
      Instr.frame ≠ .rxstart ∧ Instr.frame ≠ .rxchunk ∧ Instr.frame ≠ .rxstop ∧
      exec .frame base = .next (after (exec .frame base)) := by
  refine ⟨by decide, by decide, by decide, by decide, by decide, by decide, by decide, rfl⟩

theorem witness_ReceiveAndControlFrames : exec .rxstart base = .next (after (exec .rxstart base)) := rfl

/-- The invariant holds in a state other than reset: a receive loop that waits for its chunk. -/
theorem witness_EveryStepKeepsTheInvariant :
    let s : State := { loop (seq 8 0b11111110) with busy := some .rxchunk }
    s.Inv ∧ step s = .next (after (step s)) := by
  refine ⟨⟨by decide +kernel, by decide +kernel, ?_, fun _ => rfl, ?_⟩, rfl⟩
  · intro h; cases h
  · intro _ _ h; cases h

end Sys2Proof.Tests
end

