-- ==== Sys2Proof/Proofs/Scope.lean ====
section
/-! PROOFS. The shared functions of 00_scope.md: marker search (R12), bits and bytes (R13), `round` (R15) and the
symbol length it gives (10_state.md R22). -/

namespace Sys2Proof.Machine

/-! ### Marker search -/

/-- `find` takes the least index that passes its test: R12 with the test spelled out. -/
theorem find_eq_some_iff {s pat : Bits} {start i : Nat} : find s pat start = some i ↔
    (start ≤ i ∧ i + pat.length ≤ s.length ∧ slice s i (i + pat.length) = pat) ∧
      ∀ j, j < i → start ≤ j → j + pat.length ≤ s.length → slice s j (j + pat.length) ≠ pat := by
  simp only [find, List.find?_range_eq_some, List.mem_range, Bool.and_eq_true, Bool.not_eq_true',
    ← Bool.not_eq_true, decide_eq_true_eq, matchesAt_iff, not_and]
  constructor
  · rintro ⟨hi, -, least⟩
    exact ⟨hi, least⟩
  · rintro ⟨hi, least⟩
    exact ⟨hi, by omega, least⟩

/-- `find` fails exactly when the pattern stands nowhere at or after the start (R12). -/
theorem find_eq_none_iff {s pat : Bits} {start : Nat} : find s pat start = none ↔
    ∀ i, start ≤ i → i + pat.length ≤ s.length → slice s i (i + pat.length) ≠ pat := by
  simp only [find, List.find?_range_eq_none, Bool.not_eq_true', ← Bool.not_eq_true, Bool.and_eq_true,
    decide_eq_true_eq, matchesAt_iff, not_and]
  exact ⟨fun h i hi hfit => h i (by omega) hi hfit, fun h i _ hi hfit => h i hi hfit⟩

/-- Settles O16: an index before one that fits also fits, so the bound on the earlier indices can be dropped. -/
theorem findIsTheLeftmostOccurrence : Obligations.FindIsTheLeftmostOccurrence := by
  refine fun s pat start => ⟨fun i => ?_, find_eq_none_iff⟩
  rw [find_eq_some_iff]
  constructor
  · rintro ⟨⟨hstart, hfit, hpat⟩, least⟩
    exact ⟨hstart, hfit, hpat, fun j hj hji => least j hji hj (by omega)⟩
  · rintro ⟨hstart, hfit, hpat, least⟩
    exact ⟨⟨hstart, hfit, hpat⟩, fun j hji hj _ => least j hj hji⟩

/-! ### Bits and bytes -/

/-- The number a bit sequence of any length writes, most significant bit first; `byteOf` is this number as a byte. -/
def bitsValue (s : Bits) : Nat := s.foldl (fun n b => 2 * n + b.toNat) 0

theorem byteOf_eq_ofNat_bitsValue (s : Bits) : byteOf s = BitVec.ofNat 8 (bitsValue s) := rfl

@[simp] theorem bitsValue_concat (s : Bits) (b : Bit) : bitsValue (s ++ [b]) = Nat.bit b (bitsValue s) := by
  simp [bitsValue, Nat.bit_val]

/-- Bit `i` of the number, counted from the least significant one, is element `i` counted from the end. -/
theorem testBit_bitsValue (s : Bits) (i : Nat) : (bitsValue s).testBit i = s.reverse.getD i false := by
  induction s using List.reverseRecOn generalizing i with
  | nil => simp [bitsValue]
  | append_singleton s b ih =>
    cases i with
    | zero => simp
    | succ i => simpa [Nat.testBit_bit_succ] using ih i

theorem bitsValue_eq_sum (s : Bits) :
    bitsValue s = ∑ i ∈ Finset.range s.length, (s.getD i false).toNat * 2 ^ (s.length - 1 - i) := by
  induction s using List.reverseRecOn with
  | nil => rfl
  | append_singleton s b ih =>
    have shifted : ∀ i ∈ Finset.range s.length, ((s ++ [b]).getD i false).toNat * 2 ^ (s.length - i) =
        2 * ((s.getD i false).toNat * 2 ^ (s.length - 1 - i)) := by
      intro i hi
      have hi : i < s.length := Finset.mem_range.mp hi
      rw [List.getD_append _ _ _ _ hi, show s.length - i = s.length - 1 - i + 1 by omega, pow_succ]
      ring
    rw [List.length_append, List.length_singleton, Nat.add_sub_cancel, Finset.sum_range_succ,
      Finset.sum_congr rfl shifted, ← Finset.mul_sum, ← ih]
    simp [Nat.bit_val]

theorem bitsValue_lt (s : Bits) : bitsValue s < 2 ^ s.length := by
  induction s using List.reverseRecOn with
  | nil => decide
  | append_singleton s b ih =>
    have := b.toNat_le
    simp only [bitsValue_concat, Nat.bit_val, List.length_append, List.length_singleton, pow_succ]
    omega

theorem byteOf_toNat {s : Bits} (h : s.length = 8) : (byteOf s).toNat = bitsValue s := by
  have hlt := bitsValue_lt s
  rw [h] at hlt
  rw [byteOf_eq_ofNat_bitsValue, BitVec.toNat_ofNat, Nat.mod_eq_of_lt hlt]

theorem getLsbD_byteOf (s : Bits) {i : Nat} (h : i < 8) : (byteOf s).getLsbD i = s.reverse.getD i false := by
  rw [byteOf_eq_ofNat_bitsValue, BitVec.getLsbD_ofNat, testBit_bitsValue, decide_eq_true h, Bool.true_and]

/-- R13: element `i` of `bits w` is bit `7 - i` of `w`. -/
theorem bits_getElem? (w : Byte) {i : Nat} (h : i < 8) : (bits w)[i]? = some (w.getLsbD (7 - i)) := by
  interval_cases i <;> rfl

@[simp] theorem byteOf_bits (w : Byte) : byteOf (bits w) = w := by
  refine BitVec.eq_of_getLsbD_eq fun i hi => ?_
  rw [getLsbD_byteOf _ hi, List.getD_eq_getElem?_getD, List.getElem?_reverse (by simpa using hi), bits_length,
    bits_getElem? _ (by omega), Option.getD_some, show 7 - (8 - 1 - i) = i by omega]

theorem bits_byteOf {s : Bits} (h : s.length = 8) : bits (byteOf s) = s := by
  refine List.ext_getElem (by simp [h]) fun i hi hs => ?_
  have hi : i < 8 := hi
  have last : s.length - 1 - (7 - i) = i := by omega
  rw [← Option.some_inj, ← List.getElem?_eq_getElem, bits_getElem? _ hi, getLsbD_byteOf _ (by omega),
    List.getD_eq_getElem?_getD, List.getElem?_reverse (by omega), last, List.getElem?_eq_getElem hs, Option.getD_some]

/-- Settles O15: both inverses follow from the bit numbers of `byteOf` and `bits`, the sum from `bitsValue`. -/
theorem bitsAndByteOfAreInverse : Obligations.BitsAndByteOfAreInverse :=
  ⟨fun w _ hi => bits_getElem? w hi, fun s hs => by rw [byteOf_toNat hs, bitsValue_eq_sum, hs],
    fun w => ⟨bits_length w, byteOf_bits w⟩, fun _ hs => bits_byteOf hs⟩

/-! ### Rounding -/

/-- Whatever the tie rule, `round` is the floor where the fraction is at most 1/2 and the ceiling where it is at
least 1/2. -/
theorem roundQ_cases (t : RoundTie) (x : Rat) :
    (roundQ t x = x.floor ∧ x - x.floor ≤ 1 / 2) ∨ (roundQ t x = x.floor + 1 ∧ 1 / 2 ≤ x - x.floor) := by
  unfold roundQ
  dsimp only
  split
  · next h => exact .inl ⟨rfl, h.le⟩
  · next hlow =>
    split
    · next h => exact .inr ⟨rfl, h.le⟩
    · next hhigh =>
      split
      · exact .inr ⟨rfl, not_lt.mp hlow⟩
      · exact .inl ⟨rfl, not_lt.mp hhigh⟩

/-- R15: `|round(x) - x| ≤ 1/2`. -/
theorem abs_roundQ_sub_le (t : RoundTie) (x : Rat) : |((roundQ t x : Int) : Rat) - x| ≤ 1 / 2 := by
  have hle := Rat.floor_le x
  have hlt := Rat.lt_floor_add_one x
  push_cast at hlt
  rw [abs_le]
  rcases roundQ_cases t x with ⟨h, hd⟩ | ⟨h, hd⟩ <;> rw [h] <;> push_cast <;> constructor <;> linarith

/-- R15: an integer nearer than 1/2 is less than 1 away from `round(x)`, so it is `round(x)`. -/
theorem roundQ_eq_of_abs_sub_lt {t : RoundTie} {x : Rat} {n : Int} (h : |(n : Rat) - x| < 1 / 2) :
    roundQ t x = n := by
  have near : |((roundQ t x : Int) : Rat) - n| < 1 := by
    calc |((roundQ t x : Int) : Rat) - n|
        ≤ |((roundQ t x : Int) : Rat) - x| + |x - n| := abs_sub_le _ _ _
      _ < 1 / 2 + 1 / 2 := add_lt_add_of_le_of_lt (abs_roundQ_sub_le t x) (by rwa [abs_sub_comm])
      _ = 1 := by norm_num
  exact sub_eq_zero.mp (Int.abs_lt_one_iff.mp (by exact_mod_cast near))

theorem roundQ_nonneg (t : RoundTie) {x : Rat} (h : 0 ≤ x) : 0 ≤ roundQ t x := by
  have low := (abs_le.mp (abs_roundQ_sub_le t x)).1
  have : (-1 : Rat) < roundQ t x := by linarith
  have : (-1 : Int) < roundQ t x := by exact_mod_cast this
  omega

/-- R22: `NSYM = round(CFG.fs * CFG.tbit)`; the product is positive, so the rounded value is no negative number. -/
theorem nsym_eq_roundQ (p : Params) {c : ModemConfig} (hfs : 0 < c.fs) (htbit : 0 < c.tbit) :
    ((nsym p c : Nat) : Int) = roundQ p.roundTie (c.fs * c.tbit) :=
  Int.toNat_of_nonneg (roundQ_nonneg _ (mul_pos hfs htbit).le)

/-- Settles O14: the fraction of `x` bounds the distance, and the rest follows from that bound. -/
theorem roundIsNearest : Obligations.RoundIsNearest :=
  ⟨abs_roundQ_sub_le, fun _ _ _ => roundQ_eq_of_abs_sub_lt, fun p _ => nsym_eq_roundQ p⟩

end Sys2Proof.Machine
end

