-- ==== Sys2Proof/Proofs/ArchState.lean ====
section
/-! PROOFS. The architectural state (10_state.md): what each command may write of it, and what every step keeps
(R23 to R36). -/

namespace Sys2Proof.Machine

/-! ### A command as a check and an effect -/

/-- RX_RUN is as the command needs it (R85). -/
def admitted (s : State) : Instr → Bool
  | .cfgload | .calibrate | .rxstart => !s.rxRun
  | .rxchunk | .rxstop => s.rxRun
  | .tone _ | .domfreq | .classify | .frame | .deframe | .modulate | .encode | .feed | .scan => true

/-- What the command does where it is not refused; `exec_eq_runCommand` ties it to `exec`. -/
def effect (s : State) : Instr → State
  | .cfgload =>
    match firstFailing s.ports.cfgin with
    | none => { s with cfg := s.ports.cfgin }
    | some which => s.fatalError (.configError which)
  | .tone b => s.outWave (tone s.params s.cfg b)
  | .domfreq =>
    if domfreqOperandOk s.ports.samp then
      (s.outRes (.frequency (domfreq s.params s.cfg.fs (mono s.ports.samp)))).outSpec
        (spectrum s.params s.cfg.fs (mono s.ports.samp))
    else s.refuseOperand (encode .domfreq)
  | .classify => s.outRes (.classified (classify s.cfg s.ports.freq))
  | .frame => s.outRes (.framed (frameBits s.ports.bytes))
  | .deframe =>
    if s.ports.bits.length % 8 ≠ 0 then s.report (.unalignedBody s.ports.bits.length)
    else if s.ports.bits.length = 0 then s.report .emptyBody
    else s.outRes (.deframed (deframe s.ports.bits).payload (deframe s.ports.bits).valid)
  | .calibrate =>
    match calibrateCount s.params s.cfg.fs s.ports.calin with
    | none => s.refuseOperand (encode .calibrate)
    | some count => calibrateOpen count s.ports.calin.minFreq s
  | .modulate => s.outWave (toneBits s.params s.cfg s.ports.bits)
  | .encode => s.outWave (toneBits s.params s.cfg (frameBits s.ports.bytes))
  | .feed => s.appendAndDrain s.ports.bits
  | .scan => (s.setBitbuf (scan1 s.bitbuf).2).outRes (scanResult (scan1 s.bitbuf))
  | .rxstart => rxstartOpen s
  | .rxchunk => if s.now.abort then s.abortExit else rxRead s
  | .rxstop => { s.captureClose with bitbuf := [], rxRun := false }

theorem exec_eq_runCommand (i : Instr) (s : State) : exec i s = runCommand i (admitted s i) s (effect s i) := by
  cases i <;> rfl

/-- Everything a command can do: be refused, or have its effect. -/
theorem exec_cases {i : Instr} {s t : State} (h : exec i s = .next t) :
    ((s.fatal = true ∨ admitted s i = false) ∧ t = s.report (.commandError (encode i))) ∨
      (s.fatal = false ∧ admitted s i = true ∧ t = effect s i) :=
  runCommand_cases (exec_eq_runCommand i s ▸ h)

/-! ### Which case of a step it is -/

theorem step_of_reset {s : State} (h : s.now.reset = true) : step s = .next s.beginStep.resetCore.endStep := by
  simp [step, State.doing, h]

theorem step_of_busy {s : State} {b : Busy} (hr : s.now.reset = false) (hb : s.busy = some b) :
    step s = .next (s.beginStep.resume b).endStep := by
  simp [step, State.doing, hr, hb]

theorem step_of_idle {s : State} (hr : s.now.reset = false) (hb : s.busy = none) (hc : s.cmd = []) :
    step s = .next s.beginStep.endStep := by
  simp [step, State.doing, hr, hb, hc]

theorem step_of_illegal {s : State} {c : Command} {rest : List Command} {e : IllegalWord} (ht : s.Takes c rest)
    (hd : decode c.word = .error e) :
    step s = .next ((s.beginStep.dropCommand rest).report (.commandError c.word)).endStep := by
  obtain ⟨hr, hb, hc⟩ := ht
  simp [step, State.doing, hr, hb, hc, hd]

theorem step_of_running {s : State} {c : Command} {rest : List Command} {i : Instr} (ht : s.Takes c rest)
    (hd : decode c.word = .ok i) : step s = finish (exec i (s.beginStep.takeCommand c rest)) := by
  obtain ⟨hr, hb, hc⟩ := ht
  simp [step, State.doing, hr, hb, hc, hd]

/-- A step that runs a command ends in what the command gives. -/
theorem exec_of_step {s t : State} {c : Command} {rest : List Command} {i : Instr} (ht : s.Takes c rest)
    (hd : decode c.word = .ok i) (h : step s = .next t) :
    ∃ u, exec i (s.beginStep.takeCommand c rest) = .next u ∧ t = u.endStep := by
  obtain ⟨u, hu⟩ := exec_next i (s.beginStep.takeCommand c rest)
  rw [step_of_running ht hd, hu, finish_next, Host.Outcome.next.injEq] at h
  exact ⟨u, hu, h.symm⟩

/-! ### The codec and transmit commands -/

/-- The commands of the Symbol Codec, the Frame Codec and the Transmit Pipeline. -/
def isCodec : Instr → Bool
  | .tone _ | .domfreq | .classify | .frame | .deframe | .modulate | .encode => true
  | .cfgload | .calibrate | .feed | .scan | .rxstart | .rxchunk | .rxstop => false

theorem isCodec_of_ne {i : Instr} (h1 : i ≠ .cfgload) (h2 : i ≠ .calibrate) (h3 : i ≠ .feed) (h4 : i ≠ .scan)
    (h5 : i ≠ .rxstart) (h6 : i ≠ .rxchunk) (h7 : i ≠ .rxstop) : isCodec i = true := by
  cases i <;> simp_all [isCodec]

theorem admitted_codec {i : Instr} (h : isCodec i = true) (s : State) : admitted s i = true := by
  cases i <;> simp_all [isCodec, admitted]

/-- A codec command reports and delivers, and what it reports and delivers depends neither on EVT nor on the receive
state. -/
theorem effect_codec (s : State) : ∀ {i : Instr}, isCodec i = true →
    ∃ es r w v, ∀ evt buf run, effect { s with evt := evt, bitbuf := buf, rxRun := run } i =
      { s with evt := evt ++ es, bitbuf := buf, rxRun := run, res := r, wave := w, spec := v }
  | .tone b, _ =>
    ⟨[], s.res, some ⟨tone s.params s.cfg b, s.cfg.fs⟩, s.spec, fun evt _ _ => by simp [effect, State.outWave]⟩
  | .domfreq, _ => by
    by_cases hok : domfreqOperandOk s.ports.samp = true
    · exact ⟨[], some (.frequency (domfreq s.params s.cfg.fs (mono s.ports.samp))), s.wave,
        some (spectrum s.params s.cfg.fs (mono s.ports.samp)),
        fun _ _ _ => by simp [effect, hok, State.outRes, State.outSpec]⟩
    · exact ⟨[.operandError (encode .domfreq)], s.res, s.wave, s.spec,
        fun _ _ _ => by simp [effect, hok, State.report]⟩
  | .classify, _ =>
    ⟨[], some (.classified (classify s.cfg s.ports.freq)), s.wave, s.spec,
      fun _ _ _ => by simp [effect, State.outRes]⟩
  | .frame, _ =>
    ⟨[], some (.framed (frameBits s.ports.bytes)), s.wave, s.spec, fun _ _ _ => by simp [effect, State.outRes]⟩
  | .deframe, _ => by
    by_cases hmod : s.ports.bits.length % 8 = 0
    · by_cases hempty : s.ports.bits = []
      · exact ⟨[.emptyBody], s.res, s.wave, s.spec, fun _ _ _ => by simp [effect, hempty, State.report]⟩
      · exact ⟨[], some (.deframed (deframe s.ports.bits).payload (deframe s.ports.bits).valid), s.wave, s.spec,
          fun _ _ _ => by simp [effect, hmod, hempty, State.outRes]⟩
    · exact ⟨[.unalignedBody s.ports.bits.length], s.res, s.wave, s.spec,
        fun _ _ _ => by simp [effect, hmod, State.report]⟩
  | .modulate, _ =>
    ⟨[], s.res, some ⟨toneBits s.params s.cfg s.ports.bits, s.cfg.fs⟩, s.spec,
      fun _ _ _ => by simp [effect, State.outWave]⟩
  | .encode, _ =>
    ⟨[], s.res, some ⟨toneBits s.params s.cfg (frameBits s.ports.bytes), s.cfg.fs⟩, s.spec,
      fun _ _ _ => by simp [effect, State.outWave]⟩

/-- The frame of a codec command. -/
theorem effect_codec_frame {i : Instr} (h : isCodec i = true) (s : State) : effect s i = { s with
    evt := (effect s i).evt, res := (effect s i).res, wave := (effect s i).wave, spec := (effect s i).spec } := by
  obtain ⟨es, r, w, v, heff⟩ := effect_codec s h
  rw [heff s.evt s.bitbuf s.rxRun]

/-- Settles O57: a codec command has one effect whatever stands in BITBUF and RX_RUN, and no other state admits it. -/
theorem codecsIgnoreTheReceiveState : Obligations.CodecsIgnoreTheReceiveState := by
  intro i s t buf run h1 h2 h3 h4 h5 h6 h7 h
  have hi := isCodec_of_ne h1 h2 h3 h4 h5 h6 h7
  obtain ⟨es, r, w, v, heff⟩ := effect_codec s hi
  rw [exec_eq_runCommand, admitted_codec hi]
  rcases exec_cases h with ⟨hf | hadm, rfl⟩ | ⟨hf, -, rfl⟩
  · exact ⟨rfl, runCommand_refused (.inl hf)⟩
  · rw [admitted_codec hi] at hadm
    contradiction
  · refine ⟨effect_codec_frame hi s, (runCommand_admitted (by exact hf)).trans ?_⟩
    rw [heff s.evt s.bitbuf s.rxRun]
    exact congrArg _ (heff s.evt buf run)

/-! ### The scanner and the normal forms of BITBUF -/

theorem slice_drop (s : Bits) (k i j : Nat) : slice (s.drop k) i j = slice s (k + i) (k + j) := by
  simp [slice, List.take_drop]

theorem formS_iff {b : Bits} : formS b = true ↔ find b START 0 = none ∧ b.length ≤ 7 := by
  simp [formS]

theorem formF_iff {b : Bits} : formF b = true ↔ slice b 0 8 = START ∧ find b END 8 = none := by
  simp [formF]

/-- START does not fit into 7 bits. -/
theorem formS_of_length_le {b : Bits} (h : b.length ≤ 7) : formS b = true := by
  refine formS_iff.mpr ⟨find_eq_none_iff.mpr fun i _ hfit => ?_, h⟩
  simp only [START_length] at hfit
  omega

theorem normalForm_nil : normalForm [] = true := rfl

theorem normalForm_iff {b : Bits} : normalForm b = true ↔ formS b = true ∨ formF b = true := by
  simp [normalForm]

/-- Dropping bits before the start of a search shifts what it finds. -/
theorem find_drop_eq_none {b pat : Bits} {k start : Nat} (hk : k ≤ b.length) (h : find b pat (k + start) = none) :
    find (b.drop k) pat start = none := by
  rw [find_eq_none_iff] at h ⊢
  intro i hi hfit
  rw [List.length_drop] at hfit
  rw [slice_drop, ← Nat.add_assoc]
  exact h (k + i) (by omega) (by omega)

/-- A scanner call that emits nothing leaves a normal form (R28). -/
theorem normalForm_of_scan1_none {b rest : Bits} (h : scan1 b = (none, rest)) : normalForm rest = true := by
  rw [normalForm_iff]
  rcases scan1_cases b with ⟨-, h'⟩ | ⟨a, ha, he, h'⟩ | ⟨a, e, -, -, -, -, h'⟩ <;>
    rw [h', Prod.mk.injEq] at h <;> obtain ⟨h, rfl⟩ := h
  · exact .inl (formS_of_length_le (by simp; omega))
  · obtain ⟨-, hfit, hpat⟩ := find_some ha
    exact .inr (formF_iff.mpr ⟨by rwa [slice_drop], find_drop_eq_none (by omega) he⟩)
  · contradiction

/-- A START at the front is the one a search from the front finds. -/
theorem find_START_of_front {b : Bits} (h : slice b 0 8 = START) : 8 ≤ b.length ∧ find b START 0 = some 0 := by
  have hlen := congrArg List.length h
  rw [slice_length, START_length] at hlen
  have hlen : 8 ≤ b.length := by omega
  exact ⟨hlen, find_eq_some_iff.mpr ⟨⟨le_rfl, by simpa using hlen, h⟩, fun j hj => absurd hj (Nat.not_lt_zero j)⟩⟩

theorem scan1_of_normalForm {b : Bits} (h : normalForm b = true) : scan1 b = (none, b) := by
  rcases normalForm_iff.mp h with h | h
  · obtain ⟨hstart, hlen⟩ := formS_iff.mp h
    simp [scan1, hstart, sliceFrom, hlen]
  · obtain ⟨hstart, hend⟩ := formF_iff.mp h
    simp [scan1, (find_START_of_front hstart).2, hend, sliceFrom]

theorem scanState_of_formF {b : Bits} (h : formF b = true) : scanState b = .inFrame :=
  have hstart := (formF_iff.mp h).1
  if_pos ⟨(find_START_of_front hstart).1, hstart⟩

theorem scanState_of_formS {b : Bits} (h : formS b = true) : scanState b = .scanning := by
  have hlen := (formS_iff.mp h).2
  exact if_neg fun hs => by omega

/-- Of a buffer in normal form, the form and SCAN_STATE tell each other (R27, R28). -/
theorem scanState_of_normalForm {b : Bits} (h : normalForm b = true) :
    (scanState b = .inFrame ↔ formF b = true) ∧ (scanState b = .scanning ↔ formS b = true) := by
  rcases normalForm_iff.mp h with hS | hF
  · have hs := scanState_of_formS hS
    refine ⟨⟨fun h => by simp [hs] at h, scanState_of_formF⟩, fun _ => hS, scanState_of_formS⟩
  · have hs := scanState_of_formF hF
    exact ⟨⟨fun _ => hF, scanState_of_formF⟩, fun h => by simp [hs] at h, scanState_of_formS⟩

/-! ### The drain loop -/

theorem handle_bitbuf (s : State) (body : Bits) : (s.handle body).bitbuf = s.bitbuf := by rw [handle_frame]

/-- The passes of the drain loop only drop bits at the front of BITBUF. -/
theorem drainLoop_bitbuf_suffix (fuel : Nat) (s : State) : (drainLoop fuel s).bitbuf <:+ s.bitbuf := by
  induction fuel generalizing s with
  | zero => exact List.suffix_rfl
  | succ fuel ih =>
    have hrest := scan1_rest_suffix s.bitbuf
    simp only [drainLoop]
    split
    · next rest h => rwa [h] at hrest
    · next body rest h =>
      rw [h] at hrest
      have := ih ((s.setBitbuf rest).handle body)
      rw [handle_bitbuf] at this
      exact this.trans hrest

/-- With a pass for every bit the drain loop ends where a scanner call emits nothing. -/
theorem drainLoop_normalForm (fuel : Nat) (s : State) (h : s.bitbuf.length < fuel) :
    normalForm (drainLoop fuel s).bitbuf = true := by
  induction fuel generalizing s with
  | zero => contradiction
  | succ fuel ih =>
    simp only [drainLoop]
    split
    · next rest hscan => exact normalForm_of_scan1_none hscan
    · next body rest hscan =>
      have hshort := scan1_some_shorter hscan
      refine ih _ ?_
      rw [handle_bitbuf, State.setBitbuf_bitbuf]
      omega

theorem appendAndDrain_normalForm (s : State) (b : Bits) : normalForm (s.appendAndDrain b).bitbuf = true :=
  drainLoop_normalForm _ _ (Nat.lt_succ_self _)

theorem appendAndDrain_bitbuf_suffix (s : State) (b : Bits) : (s.appendAndDrain b).bitbuf <:+ s.bitbuf ++ b :=
  drainLoop_bitbuf_suffix _ _

/-- The frame of appending and draining: BITBUF, EVT, the answers of `Post` and the calls. -/
theorem appendAndDrain_frame (s : State) (b : Bits) : s.appendAndDrain b = { s with
    bitbuf := (s.appendAndDrain b).bitbuf, evt := (s.appendAndDrain b).evt, post := (s.appendAndDrain b).post
    calls := (s.appendAndDrain b).calls } :=
  drainLoop_frame _ (s.setBitbuf (s.bitbuf ++ b))

/-! ### The reads that may wait -/

/-- Processing a chunk leaves BITBUF alone, or appends one bit and drains. -/
theorem rxProcess_bitbuf_cases (chunk : Chunk) (ovf : Bool) (s : State) :
    (rxProcess chunk ovf s).bitbuf = s.bitbuf ∨
      ∃ (u : State) (b : Bit), u.bitbuf = s.bitbuf ∧ rxProcess chunk ovf s = u.appendAndDrain [b] := by
  have hwarned : ∀ v, ((if ovf = true then s.report .captureOverflow else s).outSpec v).bitbuf = s.bitbuf := by
    cases ovf <;> simp
  simp only [rxProcess]
  split
  · exact .inl (hwarned _)
  · next b _ => exact .inr ⟨_, b, hwarned _, rfl⟩

/-- The frame of the read of RXCHUNK: what processing a chunk writes, the capture's buffer and the waiting. -/
theorem rxRead_frame (s : State) : rxRead s = { s with
    bitbuf := (rxRead s).bitbuf, evt := (rxRead s).evt, post := (rxRead s).post, calls := (rxRead s).calls
    spec := (rxRead s).spec, mic := (rxRead s).mic, busy := (rxRead s).busy } := by
  rcases rxRead_cases s with ⟨-, h⟩ | ⟨-, h⟩
  · rw [h]
  · rw [h, rxProcess_frame]

/-- The read of RXCHUNK leaves BITBUF alone, or appends one bit and drains. -/
theorem rxRead_bitbuf_cases (s : State) :
    (rxRead s).bitbuf = s.bitbuf ∨ ∃ (u : State) (b : Bit), u.bitbuf = s.bitbuf ∧ rxRead s = u.appendAndDrain [b] := by
  rcases rxRead_cases s with ⟨-, h⟩ | ⟨-, h⟩
  · exact .inl (by rw [h])
  · rw [h]
    exact rxProcess_bitbuf_cases _ _ _

theorem rxRead_normalForm {s : State} (h : normalForm s.bitbuf = true) : normalForm (rxRead s).bitbuf = true := by
  rcases rxRead_bitbuf_cases s with h' | ⟨u, b, -, h'⟩ <;> rw [h']
  · exact h
  · exact appendAndDrain_normalForm _ _

theorem rxRead_bitbuf_suffix (s : State) :
    ∃ new : Bits, new.length ≤ 1 ∧ (rxRead s).bitbuf <:+ s.bitbuf ++ new := by
  rcases rxRead_bitbuf_cases s with h | ⟨u, b, hu, h⟩
  · exact ⟨[], by simp, by simp [h]⟩
  · exact ⟨[b], le_rfl, by rw [h, ← hu]; exact appendAndDrain_bitbuf_suffix u [b]⟩

/-- After the read RXCHUNK waits, or nothing does. -/
theorem rxRead_busy (s : State) : (rxRead s).busy = some .rxchunk ∨ (rxRead s).busy = none := by
  rcases rxRead_cases s with ⟨-, h⟩ | ⟨-, h⟩
  · exact .inl (by rw [h])
  · exact .inr (by rw [h, rxProcess_frame])

/-- The frame of the end of a calibration. -/
theorem calibrateFinish_frame (minFreq : Rat) (chunk : Chunk) (ovf : Bool) (s : State) :
    calibrateFinish minFreq chunk ovf s = { s with
      evt := (calibrateFinish minFreq chunk ovf s).evt, res := (calibrateFinish minFreq chunk ovf s).res
      calls := (calibrateFinish minFreq chunk ovf s).calls } := by
  rcases calibrateFinish_cases minFreq chunk ovf s with ⟨_, -, h⟩ | ⟨_, _, -, h⟩ <;> rw [h]

/-- The frame of the read of CALIBRATE: what its end writes, the capture's buffer and the waiting. -/
theorem calibrateRead_frame (count : Nat) (minFreq : Rat) (s : State) : calibrateRead count minFreq s = { s with
    evt := (calibrateRead count minFreq s).evt, res := (calibrateRead count minFreq s).res
    calls := (calibrateRead count minFreq s).calls, mic := (calibrateRead count minFreq s).mic
    busy := (calibrateRead count minFreq s).busy } := by
  rcases calibrateRead_cases count minFreq s with ⟨-, h⟩ | ⟨-, h⟩
  · rw [h]
  · rw [h, calibrateFinish_frame]

/-- After the read CALIBRATE waits, or nothing does. -/
theorem calibrateRead_busy (count : Nat) (minFreq : Rat) (s : State) :
    (calibrateRead count minFreq s).busy = some (.calibrate count minFreq) ∨
      (calibrateRead count minFreq s).busy = none := by
  rcases calibrateRead_cases count minFreq s with ⟨-, h⟩ | ⟨-, h⟩
  · exact .inl (by rw [h])
  · exact .inr (by rw [h, calibrateFinish_frame])

@[simp] theorem State.resume_rxchunk (s : State) : s.resume .rxchunk = rxRead s := rfl

@[simp] theorem State.resume_calibrate (s : State) (count : Nat) (minFreq : Rat) :
    s.resume (.calibrate count minFreq) = calibrateRead count minFreq s := rfl

/-- The frame of going on with a command that waits. -/
theorem resume_frame (s : State) (b : Busy) : s.resume b = { s with
    bitbuf := (s.resume b).bitbuf, evt := (s.resume b).evt, busy := (s.resume b).busy, res := (s.resume b).res
    spec := (s.resume b).spec, calls := (s.resume b).calls, mic := (s.resume b).mic, post := (s.resume b).post } := by
  cases b with
  | rxchunk => rw [State.resume_rxchunk, rxRead_frame]
  | calibrate count minFreq => rw [State.resume_calibrate, calibrateRead_frame]

/-! ### The opens -/

/-- RXSTART enters the loop with an empty BITBUF, or fails with the fatal ResourceError (R190). -/
theorem rxstartOpen_cases {s : State} (hrun : s.rxRun = false) :
    (s.now.canOpen = true ∧ rxstartOpen s =
      { s with calls := s.calls ++ [.captureOpen true], bitbuf := [], rxRun := true }) ∨
      (s.now.canOpen = false ∧ rxstartOpen s = { s with
        calls := s.calls ++ [.captureOpen false], evt := s.evt ++ [.resourceError], fatal := true }) := by
  cases hopen : s.now.canOpen
  · refine .inr ⟨rfl, ?_⟩
    simp only [rxstartOpen, State.captureOpen, hopen]
    exact fatalError_idle hrun
  · exact .inl ⟨rfl, by simp [rxstartOpen, State.captureOpen, hopen, State.call]⟩

/-- CALIBRATE reads from the capture it opened, or fails with the fatal ResourceError (R153). -/
theorem calibrateOpen_cases {s : State} (hrun : s.rxRun = false) (count : Nat) (minFreq : Rat) :
    (s.now.canOpen = true ∧ calibrateOpen count minFreq s =
      calibrateRead count minFreq { s with calls := s.calls ++ [.captureOpen true] }) ∨
      (s.now.canOpen = false ∧ calibrateOpen count minFreq s = { s with
        calls := s.calls ++ [.captureOpen false], evt := s.evt ++ [.resourceError], fatal := true }) := by
  cases hopen : s.now.canOpen
  · refine .inr ⟨rfl, ?_⟩
    simp only [calibrateOpen, State.captureOpen, hopen]
    exact fatalError_idle hrun
  · exact .inl ⟨rfl, by simp [calibrateOpen, State.captureOpen, hopen, State.call]⟩

/-- The frame of CALIBRATE, from its operand checks on. -/
theorem effect_calibrate_frame {s : State} (hrun : s.rxRun = false) : effect s .calibrate = { s with
    fatal := (effect s .calibrate).fatal, evt := (effect s .calibrate).evt, res := (effect s .calibrate).res
    calls := (effect s .calibrate).calls, mic := (effect s .calibrate).mic, busy := (effect s .calibrate).busy } := by
  simp only [effect]
  split
  · rfl
  · next count _ =>
    rcases calibrateOpen_cases hrun count s.ports.calin.minFreq with ⟨-, h⟩ | ⟨-, h⟩ <;> rw [h]
    rw [calibrateRead_frame]

theorem firstFailing_eq_none_iff {c : ModemConfig} : firstFailing c = none ↔ configValid c = true := by
  simp [firstFailing, configValid]

/-- CFGLOAD takes a valid record, or fails with the fatal ConfigError (R210, R211). -/
theorem effect_cfgload_cases {s : State} (hrun : s.rxRun = false) :
    (configValid s.ports.cfgin = true ∧ effect s .cfgload = { s with cfg := s.ports.cfgin }) ∨
      ∃ which, effect s .cfgload = { s with evt := s.evt ++ [.configError which], fatal := true } := by
  simp only [effect]
  split
  · next h => exact .inl ⟨firstFailing_eq_none_iff.mp h, rfl⟩
  · next which _ => exact .inr ⟨which, fatalError_idle hrun⟩

/-- Settles O42: the drain ends in normal form, and a scanner call on a normal form leaves it. -/
theorem bufferEndsInNormalForm : Obligations.BufferEndsInNormalForm := by
  refine ⟨fun s hf => ⟨_, runCommand_admitted hf, appendAndDrain_normalForm _ _⟩, fun s t hnormal h => ?_,
    fun b hb => ⟨scan1_of_normalForm hb, scanState_of_normalForm hb⟩⟩
  rcases exec_cases h with ⟨-, rfl⟩ | ⟨-, -, rfl⟩
  · exact hnormal
  · simp only [effect]
    split
    · exact normalForm_nil
    · exact rxRead_normalForm hnormal

/-! ### The commands one by one, the codec commands together -/

theorem instr_cases {motive : Instr → Prop} (codec : ∀ i, isCodec i = true → motive i)
    (cfgload : motive .cfgload) (calibrate : motive .calibrate) (feed : motive .feed) (scan : motive .scan)
    (rxstart : motive .rxstart) (rxchunk : motive .rxchunk) (rxstop : motive .rxstop) : ∀ i, motive i
  | .tone _ | .domfreq | .classify | .frame | .deframe | .modulate | .encode => codec _ rfl
  | .cfgload => cfgload
  | .calibrate => calibrate
  | .feed => feed
  | .scan => scan
  | .rxstart => rxstart
  | .rxchunk => rxchunk
  | .rxstop => rxstop

section
variable (s : State)
@[simp] theorem admitted_cfgload : admitted s .cfgload = !s.rxRun := rfl
@[simp] theorem admitted_calibrate : admitted s .calibrate = !s.rxRun := rfl
@[simp] theorem admitted_rxstart : admitted s .rxstart = !s.rxRun := rfl
@[simp] theorem admitted_rxchunk : admitted s .rxchunk = s.rxRun := rfl
@[simp] theorem admitted_rxstop : admitted s .rxstop = s.rxRun := rfl

variable (b : Busy)
@[simp] theorem State.resume_cfg : (s.resume b).cfg = s.cfg := by rw [resume_frame]
@[simp] theorem State.resume_rxRun : (s.resume b).rxRun = s.rxRun := by rw [resume_frame]
@[simp] theorem State.resume_fatal : (s.resume b).fatal = s.fatal := by rw [resume_frame]
end

/-- RXCHUNK leaves the loop by ABORT, or reads (R192, R217). -/
theorem effect_rxchunk_cases (s : State) :
    (s.now.abort = true ∧ effect s .rxchunk = s.abortExit) ∨
      (s.now.abort = false ∧ effect s .rxchunk = rxRead s) := by
  cases h : s.now.abort <;> simp [effect, h]

/-- Only CFGLOAD writes CFG (R24). -/
theorem effect_cfg {s : State} {i : Instr} (hadm : admitted s i = true) (hi : i ≠ .cfgload) :
    (effect s i).cfg = s.cfg := by
  cases i using instr_cases with
  | codec i hcodec => rw [effect_codec_frame hcodec]
  | cfgload => contradiction
  | calibrate => rw [effect_calibrate_frame (by simpa using hadm)]
  | feed => rw [effect, appendAndDrain_frame]
  | scan => rfl
  | rxstart => rcases rxstartOpen_cases (s := s) (by simpa using hadm) with ⟨-, h⟩ | ⟨-, h⟩ <;> simp only [effect, h]
  | rxchunk =>
    rcases effect_rxchunk_cases s with ⟨-, h⟩ | ⟨-, h⟩ <;> rw [h]
    · rfl
    · rw [rxRead_frame]
  | rxstop => rfl

/-- Settles O13: of all steps only a reset and a CFGLOAD that finds its record valid write CFG. -/
theorem cfgChangesOnlyByCfgloadOrReset : Obligations.CfgChangesOnlyByCfgloadOrReset := by
  intro s t h hne
  rcases step_cases h with ⟨hr, -⟩ | ⟨-, b, -, rfl⟩ | ⟨-, -, -, rfl⟩ | ⟨c, rest, e, -, -, rfl⟩ |
    ⟨c, rest, i, u, ht, hd, hu, rfl⟩
  · exact .inl hr
  · simp at hne
  · simp at hne
  · simp at hne
  · rcases exec_cases hu with ⟨-, rfl⟩ | ⟨hf, hadm, rfl⟩
    · simp at hne
    · by_cases hi : i = .cfgload
      · subst hi
        have hrun : s.rxRun = false := by simpa using hadm
        rcases effect_cfgload_cases (s := s.beginStep.takeCommand c rest) hrun with ⟨hvalid, h⟩ | ⟨_, h⟩
        · exact .inr ⟨c, rest, ht, hd, hf, hrun, hvalid, by simp [h]⟩
        · simp [h] at hne
      · simp [effect_cfg hadm hi] at hne

/-! ### RX_RUN -/

/-- Only RXSTART, RXCHUNK and RXSTOP write RX_RUN: where a fatal error can arise it is 0 already (R29, R236). -/
theorem effect_rxRun {s : State} {i : Instr} (hadm : admitted s i = true) (h1 : i ≠ .rxstart) (h2 : i ≠ .rxchunk)
    (h3 : i ≠ .rxstop) : (effect s i).rxRun = s.rxRun := by
  cases i using instr_cases with
  | codec i hcodec => rw [effect_codec_frame hcodec]
  | cfgload => rcases effect_cfgload_cases (s := s) (by simpa using hadm) with ⟨-, h⟩ | ⟨_, h⟩ <;> rw [h]
  | calibrate => rw [effect_calibrate_frame (by simpa using hadm)]
  | feed => rw [effect, appendAndDrain_frame]
  | scan => rfl
  | rxstart => contradiction
  | rxchunk => contradiction
  | rxstop => contradiction

/-- A command raises RX_RUN only as an RXSTART whose capture opens. -/
theorem effect_raises_rxRun {s : State} {i : Instr} (hadm : admitted s i = true) (h0 : s.rxRun = false)
    (h1 : (effect s i).rxRun = true) : i = .rxstart ∧ s.now.canOpen = true := by
  by_cases hstart : i = .rxstart
  · subst hstart
    rcases rxstartOpen_cases h0 with ⟨hopen, -⟩ | ⟨-, h⟩
    · exact ⟨rfl, hopen⟩
    · simp [effect, h, h0] at h1
  · have hchunk : i ≠ .rxchunk := by rintro rfl; simp [h0] at hadm
    have hstop : i ≠ .rxstop := by rintro rfl; simp [h0] at hadm
    simp [effect_rxRun hadm hstart hchunk hstop, h0] at h1

/-- A command lets RX_RUN fall only as RXSTOP or as an RXCHUNK that sees ABORT. -/
theorem effect_lowers_rxRun {s : State} {i : Instr} (hadm : admitted s i = true) (h1 : s.rxRun = true)
    (h0 : (effect s i).rxRun = false) : i = .rxstop ∨ (i = .rxchunk ∧ s.now.abort = true) := by
  by_cases hstop : i = .rxstop
  · exact .inl hstop
  by_cases hchunk : i = .rxchunk
  · subst hchunk
    rcases effect_rxchunk_cases s with ⟨habort, -⟩ | ⟨-, h⟩
    · exact .inr ⟨rfl, habort⟩
    · rw [h, rxRead_frame] at h0
      simp [h1] at h0
  · have hstart : i ≠ .rxstart := by rintro rfl; simp [h1] at hadm
    simp [effect_rxRun hadm hstart hchunk hstop, h1] at h0

/-- A step that moves RX_RUN is a reset or takes a command that does. -/
theorem step_moves_rxRun {s t : State} (h : step s = .next t) (hne : t.rxRun ≠ s.rxRun) :
    s.now.reset = true ∧ t.rxRun = false ∨ ∃ c rest i, s.Takes c rest ∧ decode c.word = .ok i ∧ s.fatal = false ∧
      admitted (s.beginStep.takeCommand c rest) i = true ∧
      t.rxRun = (effect (s.beginStep.takeCommand c rest) i).rxRun := by
  rcases step_cases h with ⟨hr, rfl⟩ | ⟨-, b, -, rfl⟩ | ⟨-, -, -, rfl⟩ | ⟨c, rest, e, -, -, rfl⟩ |
    ⟨c, rest, i, u, ht, hd, hu, rfl⟩
  · exact .inl ⟨hr, by rw [resetCore_eq, State.endStep_rxRun]⟩
  · simp at hne
  · simp at hne
  · simp at hne
  · rcases exec_cases hu with ⟨-, rfl⟩ | ⟨hf, hadm, rfl⟩
    · simp at hne
    · exact .inr ⟨c, rest, i, ht, hd, hf, hadm, State.endStep_rxRun _⟩

/-- Settles O53: a step that moves RX_RUN takes a command that moves it, or is a reset. -/
theorem rxRunChangesOnlyAsListed : Obligations.RxRunChangesOnlyAsListed := by
  refine fun s t h => ⟨fun h0 h1 => ?_, fun h1 h0 => ?_⟩
  · rcases step_moves_rxRun h (by simp [h0, h1]) with ⟨-, hlow⟩ | ⟨c, rest, i, ht, hd, hf, hadm, hrun⟩
    · simp [hlow] at h1
    · obtain ⟨rfl, hopen⟩ := effect_raises_rxRun hadm h0 (hrun ▸ h1)
      exact ⟨c, rest, ht, hd, hf, hopen⟩
  · rcases step_moves_rxRun h (by simp [h0, h1]) with ⟨hr, -⟩ | ⟨c, rest, i, ht, hd, -, hadm, hrun⟩
    · exact .inl hr
    · rcases effect_lowers_rxRun hadm h1 (hrun ▸ h0) with rfl | ⟨rfl, habort⟩
      · exact .inr ⟨c, rest, ht, .inl hd⟩
      · exact .inr ⟨c, rest, ht, .inr ⟨hd, habort⟩⟩

/-! ### The invariant -/

/-- The invariant speaks of five fields. -/
theorem State.Inv.of_fields {s t : State} (hs : s.Inv) (hcfg : t.cfg = s.cfg) (hbuf : t.bitbuf = s.bitbuf)
    (hrun : t.rxRun = s.rxRun) (hfatal : t.fatal = s.fatal) (hbusy : t.busy = s.busy) : t.Inv := by
  obtain ⟨h1, h2, h3, h4, h5⟩ := hs
  constructor <;> simpa only [hcfg, hbuf, hrun, hfatal, hbusy]

/-- With no command in progress three of its clauses remain. -/
theorem State.Inv.of_not_busy {s : State} (hcfg : configValid s.cfg = true) (hbuf : normalForm s.bitbuf = true)
    (hfatal : s.fatal = true → s.rxRun = false) (hbusy : s.busy = none) : s.Inv :=
  ⟨hcfg, hbuf, fun h => ⟨hfatal h, hbusy⟩, by simp [hbusy], by simp [hbusy]⟩

theorem State.Inv.not_fatal_of_busy {s : State} {b : Busy} (hs : s.Inv) (hb : s.busy = some b) : s.fatal = false := by
  by_contra hf
  simp [(hs.fatalStopped (by simpa using hf)).2] at hb

/-- Settles O59: the default configuration is valid and the empty buffer has form S. -/
theorem invariantHoldsAtReset : Obligations.InvariantHoldsAtReset :=
  .of_not_busy (by decide +kernel) normalForm_nil (fun _ => rfl) rfl

/-- Settles O1: the values are those `State.reset` writes out, and the last clause is the invariant's first. -/
theorem resetHasTheSpecValues : Obligations.ResetHasTheSpecValues :=
  ⟨by decide +kernel, rfl, rfl, rfl, rfl, by decide +kernel, by decide +kernel, rfl, rfl, rfl, rfl, rfl,
    invariantHoldsAtReset.cfgValid⟩

theorem resetCore_keeps_inv (s : State) : s.resetCore.Inv := by
  rw [resetCore_eq]
  exact .of_not_busy invariantHoldsAtReset.cfgValid normalForm_nil (fun _ => rfl) rfl

/-- The read of RXCHUNK in a running loop keeps the invariant, whether it waits or not. -/
theorem rxRead_keeps_inv {s : State} (hs : s.Inv) (hrun : s.rxRun = true) (hfatal : s.fatal = false) :
    (rxRead s).Inv := by
  have hbuf := rxRead_normalForm hs.bufNormal
  have hbusy := rxRead_busy s
  rw [rxRead_frame]
  exact ⟨hs.cfgValid, hbuf, by simp [hfatal], fun _ => hrun, by rcases hbusy with h | h <;> simp [h]⟩

/-- The read of CALIBRATE outside the loop keeps the invariant, whether it waits or not. -/
theorem calibrateRead_keeps_inv {s : State} {count : Nat} (minFreq : Rat) (hs : s.Inv) (hrun : s.rxRun = false)
    (hfatal : s.fatal = false) (hcount : 1 ≤ count) : (calibrateRead count minFreq s).Inv := by
  have hbusy := calibrateRead_busy count minFreq s
  rw [calibrateRead_frame]
  refine ⟨hs.cfgValid, hs.bufNormal, by simp [hfatal], ?_, ?_⟩ <;> rcases hbusy with h | h <;> simp [h, hrun, hcount]

theorem resume_keeps_inv {s : State} {b : Busy} (hs : s.Inv) (hb : s.busy = some b) : (s.resume b).Inv := by
  have hfatal := hs.not_fatal_of_busy hb
  cases b with
  | rxchunk => exact rxRead_keeps_inv hs (hs.chunkRunning hb) hfatal
  | calibrate count minFreq =>
    obtain ⟨hrun, hcount⟩ := hs.calibrateIdle count minFreq hb
    exact calibrateRead_keeps_inv minFreq hs hrun hfatal hcount

/-- R152, R221: the count of a calibration that is not refused is positive. -/
theorem one_le_of_sampleCount {p : Params} {q : Rat} {count : Nat} (h : sampleCount p q = some count) : 1 ≤ count := by
  unfold sampleCount at h
  split at h
  · next hq =>
    simp only [Option.some.injEq] at h
    omega
  · split at h <;> simp at h
    omega

theorem one_le_of_calibrateCount {p : Params} {fs : Rat} {c : CalIn} {count : Nat}
    (h : calibrateCount p fs c = some count) : 1 ≤ count := by
  unfold calibrateCount at h
  split at h
  · contradiction
  · exact one_le_of_sampleCount h

/-- CALIBRATE keeps the invariant: a bad operand changes no field it speaks of, a capture that cannot be had is a fatal
error outside the loop, and one that opens is read. -/
theorem effect_calibrate_keeps_inv {s : State} (hs : s.Inv) (hbusy : s.busy = none) (hrun : s.rxRun = false)
    (hfatal : s.fatal = false) : (effect s .calibrate).Inv := by
  simp only [effect]
  split
  · exact hs.of_fields rfl rfl rfl rfl rfl
  · next count hcount =>
    rcases calibrateOpen_cases hrun count s.ports.calin.minFreq with ⟨-, h⟩ | ⟨-, h⟩ <;> rw [h]
    · exact calibrateRead_keeps_inv _ (hs.of_fields rfl rfl rfl rfl rfl) hrun hfatal (one_le_of_calibrateCount hcount)
    · exact .of_not_busy hs.cfgValid hs.bufNormal (fun _ => hrun) hbusy

theorem effect_keeps_inv {s : State} {i : Instr} (hs : s.Inv) (hbusy : s.busy = none) (hfatal : s.fatal = false)
    (hadm : admitted s i = true) : (effect s i).Inv := by
  cases i using instr_cases with
  | codec i hcodec =>
    rw [effect_codec_frame hcodec]
    exact hs.of_fields rfl rfl rfl rfl rfl
  | cfgload =>
    have hrun : s.rxRun = false := by simpa using hadm
    rcases effect_cfgload_cases hrun with ⟨hvalid, h⟩ | ⟨_, h⟩ <;> rw [h]
    · exact .of_not_busy hvalid hs.bufNormal (by simp [hfatal]) hbusy
    · exact .of_not_busy hs.cfgValid hs.bufNormal (fun _ => hrun) hbusy
  | calibrate => exact effect_calibrate_keeps_inv hs hbusy (by simpa using hadm) hfatal
  | feed =>
    have hbuf := appendAndDrain_normalForm s s.ports.bits
    rw [effect, appendAndDrain_frame]
    exact .of_not_busy hs.cfgValid hbuf (by simp [hfatal]) hbusy
  | scan =>
    simp only [effect, scan1_of_normalForm hs.bufNormal]
    exact hs.of_fields rfl rfl rfl rfl rfl
  | rxstart =>
    have hrun : s.rxRun = false := by simpa using hadm
    rcases rxstartOpen_cases hrun with ⟨-, h⟩ | ⟨-, h⟩ <;> simp only [effect, h]
    · exact .of_not_busy hs.cfgValid normalForm_nil (by simp [hfatal]) hbusy
    · exact .of_not_busy hs.cfgValid hs.bufNormal (fun _ => hrun) hbusy
  | rxchunk =>
    rcases effect_rxchunk_cases s with ⟨-, h⟩ | ⟨-, h⟩ <;> rw [h]
    · exact .of_not_busy hs.cfgValid normalForm_nil (fun _ => rfl) hbusy
    · exact rxRead_keeps_inv hs hadm hfatal
  | rxstop => exact .of_not_busy hs.cfgValid normalForm_nil (fun _ => rfl) hbusy

theorem exec_keeps_inv {s t : State} {i : Instr} (hs : s.Inv) (hbusy : s.busy = none) (h : exec i s = .next t) :
    t.Inv := by
  rcases exec_cases h with ⟨-, rfl⟩ | ⟨hfatal, hadm, rfl⟩
  · exact hs.of_fields rfl rfl rfl rfl rfl
  · exact effect_keeps_inv hs hbusy hfatal hadm

/-- Settles O60: each of the five things a step can do keeps the invariant, and the end of a step writes no field it
speaks of. -/
theorem everyStepKeepsTheInvariant : Obligations.EveryStepKeepsTheInvariant := by
  intro s t hs h
  have hend {u : State} (hu : u.Inv) : u.endStep.Inv := by apply hu.of_fields <;> simp
  have hbegin : s.beginStep.Inv := hs.of_fields rfl rfl rfl rfl rfl
  rcases step_cases h with ⟨-, rfl⟩ | ⟨-, b, hb, rfl⟩ | ⟨-, -, -, rfl⟩ | ⟨c, rest, e, -, -, rfl⟩ |
    ⟨c, rest, i, u, ⟨-, hbusy, -⟩, -, hu, rfl⟩
  · exact hend (resetCore_keeps_inv _)
  · exact hend (resume_keeps_inv hbegin hb)
  · exact hend hbegin
  · exact hend (hbegin.of_fields rfl rfl rfl rfl rfl)
  · have htaken : (s.beginStep.takeCommand c rest).Inv := hbegin.of_fields rfl rfl rfl rfl rfl
    exact hend (exec_keeps_inv htaken hbusy hu)

/-! ### EVT -/

/-- `s` with the events `es` reported before those it holds. -/
def State.afterEvents (s : State) (es : List Event) : State := { s with evt := es ++ s.evt }

section
variable (s : State) (es : List Event)
@[simp] theorem State.afterEvents_cfg : (s.afterEvents es).cfg = s.cfg := rfl
@[simp] theorem State.afterEvents_bitbuf : (s.afterEvents es).bitbuf = s.bitbuf := rfl
@[simp] theorem State.afterEvents_ports : (s.afterEvents es).ports = s.ports := rfl
@[simp] theorem State.afterEvents_now : (s.afterEvents es).now = s.now := rfl
@[simp] theorem State.afterEvents_params : (s.afterEvents es).params = s.params := rfl

@[simp] theorem State.report_afterEvents (e : Event) :
    (s.afterEvents es).report e = (s.report e).afterEvents es := by
  simp [State.report, State.afterEvents]

@[simp] theorem State.outRes_afterEvents (r : Result) :
    (s.afterEvents es).outRes r = (s.outRes r).afterEvents es := rfl

@[simp] theorem State.outSpec_afterEvents (v : Spectrum) :
    (s.afterEvents es).outSpec v = (s.outSpec v).afterEvents es := rfl

@[simp] theorem State.setBitbuf_afterEvents (b : Bits) :
    (s.afterEvents es).setBitbuf b = (s.setBitbuf b).afterEvents es := rfl

@[simp] theorem State.call_afterEvents (c : Call) : (s.afterEvents es).call c = (s.call c).afterEvents es := rfl

/-- The fatal error reports and reads RX_RUN, not EVT. -/
theorem fatalError_afterEvents (e : Event) : (s.afterEvents es).fatalError e = (s.fatalError e).afterEvents es := by
  cases hrun : s.rxRun
  · rw [fatalError_idle hrun, fatalError_idle (by exact hrun)]
    simp [State.afterEvents]
  · rw [fatalError_running hrun, fatalError_running (by exact hrun)]
    simp [State.afterEvents]

theorem handle_afterEvents (body : Bits) : (s.afterEvents es).handle body = (s.handle body).afterEvents es := by
  have hpost : ∀ p, (s.afterEvents es).callPost p = ((s.callPost p).1, (s.callPost p).2.afterEvents es) :=
    fun _ => rfl
  simp only [State.handle, hpost, State.report_afterEvents]
  split_ifs
  · rfl
  · rfl
  · rfl
  · rcases s.callPost (deframe body).payload with ⟨_ | r, u⟩ <;> simp

theorem drainLoop_afterEvents (fuel : Nat) :
    drainLoop fuel (s.afterEvents es) = (drainLoop fuel s).afterEvents es := by
  induction fuel generalizing s with
  | zero => rfl
  | succ fuel ih =>
    simp only [drainLoop, State.afterEvents_bitbuf]
    rcases scan1 s.bitbuf with ⟨_ | body, rest⟩
    · rfl
    · simp only [State.setBitbuf_afterEvents, handle_afterEvents, ih]

theorem appendAndDrain_afterEvents (b : Bits) :
    (s.afterEvents es).appendAndDrain b = (s.appendAndDrain b).afterEvents es :=
  drainLoop_afterEvents (s.setBitbuf (s.bitbuf ++ b)) es _

theorem rxProcess_afterEvents (chunk : Chunk) (ovf : Bool) :
    rxProcess chunk ovf (s.afterEvents es) = (rxProcess chunk ovf s).afterEvents es := by
  have hwarned : (if ovf = true then (s.afterEvents es).report .captureOverflow else s.afterEvents es) =
      (if ovf = true then s.report .captureOverflow else s).afterEvents es := by
    cases ovf <;> simp
  simp only [rxProcess, hwarned, State.afterEvents_params, State.afterEvents_cfg, State.outSpec_afterEvents]
  split
  · rfl
  · exact appendAndDrain_afterEvents _ es _

theorem captureRead_afterEvents (n : Nat) : (s.afterEvents es).captureRead n =
    (s.captureRead n).map fun r => (r.1, r.2.1, r.2.2.afterEvents es) := by
  unfold State.captureRead
  by_cases h : n ≤ s.mic.frames.length
  · rw [if_pos h, if_pos (by exact h)]
    rfl
  · rw [if_neg h, if_neg (by exact h)]
    rfl

theorem rxRead_afterEvents : rxRead (s.afterEvents es) = (rxRead s).afterEvents es := by
  simp only [rxRead, captureRead_afterEvents, State.afterEvents_params, State.afterEvents_cfg]
  rcases s.captureRead (chunkLen s.params s.cfg) with _ | ⟨chunk, ovf, u⟩
  · rfl
  · exact rxProcess_afterEvents { u with busy := none } es chunk ovf

theorem calibrateFinish_afterEvents (minFreq : Rat) (chunk : Chunk) (ovf : Bool) :
    calibrateFinish minFreq chunk ovf (s.afterEvents es) = (calibrateFinish minFreq chunk ovf s).afterEvents es := by
  simp only [calibrateFinish, State.captureClose_eq_call, State.call_afterEvents, State.afterEvents_params,
    State.afterEvents_cfg]
  split <;> cases ovf <;> simp

theorem calibrateRead_afterEvents (count : Nat) (minFreq : Rat) :
    calibrateRead count minFreq (s.afterEvents es) = (calibrateRead count minFreq s).afterEvents es := by
  simp only [calibrateRead, captureRead_afterEvents]
  rcases s.captureRead count with _ | ⟨chunk, ovf, u⟩
  · rfl
  · exact calibrateFinish_afterEvents { u with busy := none } es minFreq chunk ovf

theorem calibrateOpen_afterEvents (count : Nat) (minFreq : Rat) :
    calibrateOpen count minFreq (s.afterEvents es) = (calibrateOpen count minFreq s).afterEvents es := by
  simp only [calibrateOpen, State.captureOpen, State.afterEvents_now, State.call_afterEvents]
  cases s.now.canOpen
  · exact fatalError_afterEvents _ es _
  · exact calibrateRead_afterEvents _ es _ _

theorem rxstartOpen_afterEvents : rxstartOpen (s.afterEvents es) = (rxstartOpen s).afterEvents es := by
  simp only [rxstartOpen, State.captureOpen, State.afterEvents_now, State.call_afterEvents]
  cases s.now.canOpen
  · exact fatalError_afterEvents _ es _
  · rfl

theorem resume_afterEvents (b : Busy) : (s.afterEvents es).resume b = (s.resume b).afterEvents es := by
  cases b with
  | rxchunk => exact rxRead_afterEvents s es
  | calibrate count minFreq => exact calibrateRead_afterEvents s es count minFreq

/-- No command reads EVT: what stands in it before, stands in it after, in front of what the command reports (R31). -/
theorem effect_afterEvents (i : Instr) : effect (s.afterEvents es) i = (effect s i).afterEvents es := by
  cases i using instr_cases with
  | codec i hcodec =>
    obtain ⟨new, r, w, v, heff⟩ := effect_codec s hcodec
    have hs := heff s.evt s.bitbuf s.rxRun
    have hafter := heff (es ++ s.evt) s.bitbuf s.rxRun
    rw [List.append_assoc] at hafter
    exact hafter.trans (congrArg (State.afterEvents · es) hs.symm)
  | cfgload =>
    simp only [effect, State.afterEvents_ports]
    split
    · rfl
    · exact fatalError_afterEvents s es _
  | calibrate =>
    simp only [effect, State.afterEvents_ports, State.afterEvents_params, State.afterEvents_cfg]
    split
    · exact State.report_afterEvents s es _
    · exact calibrateOpen_afterEvents s es _ _
  | feed => exact appendAndDrain_afterEvents s es _
  | scan => rfl
  | rxstart => exact rxstartOpen_afterEvents s es
  | rxchunk =>
    rcases effect_rxchunk_cases s with ⟨habort, h⟩ | ⟨habort, h⟩ <;> rw [h]
    · simp [effect, habort, abortExit_eq, State.afterEvents]
    · simp [effect, habort, rxRead_afterEvents]
  | rxstop => rfl

theorem exec_afterEvents {t : State} {i : Instr} (h : exec i s = .next t) :
    exec i (s.afterEvents es) = .next (t.afterEvents es) := by
  have hadm : admitted (s.afterEvents es) i = admitted s i := by cases i <;> rfl
  rw [exec_eq_runCommand, hadm, effect_afterEvents]
  rcases exec_cases h with ⟨hrefused, rfl⟩ | ⟨hf, hadm, rfl⟩
  · rw [← State.report_afterEvents]
    exact runCommand_refused hrefused
  · rw [hadm]
    exact runCommand_admitted hf
end

/-- What does not read EVT appends to it. -/
theorem evt_prefix_of_afterEvents {f : State → State} (hf : ∀ s es, f (s.afterEvents es) = (f s).afterEvents es)
    (s : State) : s.evt <+: (f s).evt := by
  have hs : s = State.afterEvents { s with evt := [] } s.evt := by simp [State.afterEvents]
  have h := congrArg State.evt (hf { s with evt := [] } s.evt)
  rw [← hs] at h
  exact ⟨_, h.symm⟩

theorem exec_evt_prefix {s t : State} {i : Instr} (h : exec i s = .next t) : s.evt <+: t.evt := by
  rcases exec_cases h with ⟨-, rfl⟩ | ⟨-, -, rfl⟩
  · exact List.prefix_append _ _
  · exact evt_prefix_of_afterEvents (f := (effect · i)) (effect_afterEvents · · i) s

/-- Settles O54: no command reads EVT, so every command appends to it, and so does a command that goes on. -/
theorem evtIsAppendedAndNeverRead : Obligations.EvtIsAppendedAndNeverRead := by
  refine ⟨fun s t h hr => ?_, fun i s t es h => exec_afterEvents s es h, fun s t h hr => ?_⟩
  · rcases step_cases h with ⟨hr', -⟩ | ⟨-, b, -, rfl⟩ | ⟨-, -, -, rfl⟩ | ⟨c, rest, e, -, -, rfl⟩ |
      ⟨c, rest, i, u, -, -, hu, rfl⟩
    · simp [hr] at hr'
    · rw [State.endStep_evt]
      exact evt_prefix_of_afterEvents (f := (State.resume · b)) (resume_afterEvents · · b) s.beginStep
    · simp
    · simp
    · rw [State.endStep_evt]
      exact exec_evt_prefix (s := s.beginStep.takeCommand c rest) hu
  · rw [step_of_reset hr, Host.Outcome.next.injEq] at h
    rw [← h, State.endStep_evt, resetCore_eq]

/-! ### BITBUF -/

/-- What a command may make of the buffer `old`, where `operand` is FEED's operand (R25, R224). -/
def BitbufMoves (i : Instr) (fatal : Bool) (operand old new : Bits) : Prop :=
  (i ≠ .feed → i ≠ .scan → i ≠ .rxstart → i ≠ .rxchunk → i ≠ .rxstop → new = old) ∧
    (fatal = true → new = old) ∧
    (i = .feed → fatal = false → new <:+ old ++ operand) ∧
    (i = .scan → new <:+ old) ∧
    (i = .rxchunk → ∃ bit : Bits, bit.length ≤ 1 ∧ new <:+ old ++ bit) ∧
    ((i = .rxstart ∨ i = .rxstop) → new = [] ∨ new = old)

/-- A buffer that is left alone has moved as a command may move it, but for a FEED that is not refused. -/
theorem BitbufMoves.refl {i : Instr} {fatal : Bool} (hfeed : i = .feed → fatal = true) (operand b : Bits) :
    BitbufMoves i fatal operand b b :=
  ⟨fun _ _ _ _ _ => rfl, fun _ => rfl, fun hi hf => by simp [hfeed hi] at hf, fun _ => List.suffix_rfl,
    fun _ => ⟨[], by simp, by simp⟩, fun _ => .inr rfl⟩

theorem effect_moves_bitbuf {s : State} {i : Instr} (hf : s.fatal = false) (hadm : admitted s i = true) :
    BitbufMoves i s.fatal s.ports.bits s.bitbuf (effect s i).bitbuf := by
  cases i using instr_cases with
  | codec i hcodec =>
    rw [effect_codec_frame hcodec]
    exact .refl (by rintro rfl; contradiction) _ _
  | cfgload =>
    rcases effect_cfgload_cases (s := s) (by simpa using hadm) with ⟨-, h⟩ | ⟨_, h⟩ <;> rw [h] <;>
      exact .refl (by simp) _ _
  | calibrate =>
    rw [effect_calibrate_frame (by simpa using hadm)]
    exact .refl (by simp) _ _
  | feed => simpa [BitbufMoves, hf, effect] using appendAndDrain_bitbuf_suffix s s.ports.bits
  | scan => simpa [BitbufMoves, hf, effect] using scan1_rest_suffix s.bitbuf
  | rxstart =>
    rcases rxstartOpen_cases (s := s) (by simpa using hadm) with ⟨-, h⟩ | ⟨-, h⟩ <;>
      simp [BitbufMoves, hf, effect, h]
  | rxchunk =>
    rcases effect_rxchunk_cases s with ⟨-, h⟩ | ⟨-, h⟩ <;> rw [h]
    · simpa [BitbufMoves, hf, abortExit_eq] using ⟨[], Nat.zero_le 1⟩
    · simpa [BitbufMoves, hf] using rxRead_bitbuf_suffix s
  | rxstop => simp [BitbufMoves, hf, effect]

theorem exec_moves_bitbuf {s t : State} {i : Instr} (h : exec i s = .next t) :
    BitbufMoves i s.fatal s.ports.bits s.bitbuf t.bitbuf := by
  rcases exec_cases h with ⟨hf | hadm, rfl⟩ | ⟨hf, hadm, rfl⟩
  · exact .refl (fun _ => hf) _ _
  · exact .refl (by rintro rfl; contradiction) _ _
  · exact effect_moves_bitbuf hf hadm

/-- Settles O55: a step that runs a command moves BITBUF as the command does, and of the other steps only a reset and
one that goes on with RXCHUNK move it. -/
theorem bitsEnterAtTheEndAndLeaveAtTheFront : Obligations.BitsEnterAtTheEndAndLeaveAtTheFront := by
  refine ⟨fun i s t => exec_moves_bitbuf, fun s t h => ⟨fun hr => ?_, fun hr hb => ?_, fun m f hr hb => ?_,
    fun hr hb hc => ?_, fun c rest e ht hd => ?_, fun c rest i ht hd => ?_⟩⟩
  · rw [step_of_reset hr, Host.Outcome.next.injEq] at h
    rw [← h, State.endStep_bitbuf, resetCore_eq]
  · rw [step_of_busy hr hb, Host.Outcome.next.injEq] at h
    rw [← h, State.endStep_bitbuf]
    exact rxRead_bitbuf_suffix s.beginStep
  · rw [step_of_busy hr hb, Host.Outcome.next.injEq] at h
    rw [← h, State.endStep_bitbuf, State.resume_calibrate, calibrateRead_frame]
    rfl
  · rw [step_of_idle hr hb hc, Host.Outcome.next.injEq] at h
    simp [← h]
  · rw [step_of_illegal ht hd, Host.Outcome.next.injEq] at h
    simp [← h]
  · obtain ⟨u, hu, rfl⟩ := exec_of_step ht hd h
    rw [State.endStep_bitbuf]
    exact exec_moves_bitbuf (s := s.beginStep.takeCommand c rest) hu

end Sys2Proof.Machine
end

