-- ==== Sys2Proof/Proofs/Memory.lean ====
section
/-! PROOFS. The memory interfaces (20_memory.md): the command that a step takes from the queue and runs (R60), and the
mono reduction (R66). -/

namespace Sys2Proof.Machine

/-! ### The command a step runs -/

/-- The words of R83 decode to the commands they stand for. -/
@[simp] theorem decode_encode (i : Instr) : decode (encode i) = .ok i := by
  cases i with
  | tone b =>
    obtain ⟨-, -, hd⟩ := Laws.EncodeDecode.tone b
    exact hd
  | _ => rfl

theorem withFetchWord_toNat (s : State) (w : Byte) : s.withFetchWord 8 w.toNat = s.withNextWord w := by
  rw [State.withFetchWord, Nat.mod_eq_of_lt w.isLt, BitVec.ofNat_toNat, BitVec.setWidth_eq]

/-- With an empty queue the word gets a place of its own, otherwise it replaces the word at the head. -/
theorem withNextWord_takes (s : State) (w : Byte) : ∃ c rest, (s.withNextWord w).Takes c rest ∧ c.word = w := by
  unfold State.withNextWord State.Takes
  cases s.cmd with
  | nil => exact ⟨⟨w, s.ports⟩, [], ⟨rfl, rfl, rfl⟩, rfl⟩
  | cons c rest => exact ⟨{ c with word := w }, rest, ⟨rfl, rfl, rfl⟩, rfl⟩

/-- Settles O5: the running case of a step, and the command that `withFetchWord` puts at the head of the queue. -/
theorem stepRunsTheDecodedCommand : Obligations.StepRunsTheDecodedCommand := by
  refine ⟨fun s c rest i => step_of_running, fun s i => ?_⟩
  obtain ⟨c, rest, htakes, hword⟩ := withNextWord_takes s (encode i)
  rw [withFetchWord_toNat]
  exact ⟨c, rest, htakes, hword, hword ▸ decode_encode i⟩

/-! ### The mono reduction -/

@[simp] theorem mono_length (chunk : Chunk) : (mono chunk).length = chunk.length := List.length_map _

theorem mono_getElem? (chunk : Chunk) (n : Nat) : (mono chunk)[n]? = chunk[n]?.map monoFrame := List.getElem?_map

/-- A frame with a channel: its mono sample, taken as many times as there are channels, is the sum of the channels. -/
theorem sampleValue_monoFrame_mul_length (env : Nat → ℝ) {f : SampleFrame} (hf : 1 ≤ f.length) :
    sampleValue env (monoFrame f) * (f.length : ℝ) = (f.map (sampleValue env)).sum := by
  have hne : (f.length : ℝ) ≠ 0 := Nat.cast_ne_zero.mpr (by omega)
  rw [monoFrame, sampleValue_mean, div_mul_cancel₀ _ hne]

@[simp] theorem sampleScale_one (v : Sample) : v.scale 1 = v := by simp [Sample.scale]

/-- The mean of one value is the value as it is written, not only the real number it stands for. -/
@[simp] theorem monoFrame_singleton (v : Sample) : monoFrame [v] = v := by
  simp [monoFrame, Sample.mean, Sample.sum]

/-- Settles O18: the mean of each frame, and the mean of one channel. -/
theorem monoIsTheChannelMean : Obligations.MonoIsTheChannelMean := by
  refine ⟨fun env chunk n f hn hf => ?_, mono_length, fun x => ?_⟩
  · exact ⟨monoFrame f, by rw [mono_getElem?, hn, Option.map_some], sampleValue_monoFrame_mul_length env hf⟩
  · simp [mono, Function.comp_def]

end Sys2Proof.Machine
end

/-! PROOFS. The encodings (30_encoding.md): the on-air frame (R70), the command word and its decoder (R80 to R84), and
the refusals of a command (R84, R85). -/

namespace Sys2Proof.Machine

/-! ### The on-air frame -/

/-- A part of a bit sequence stands at the index where what comes before it ends. -/
theorem slice_of_eq_append {s before part after : Bits} {i j : Nat} (h : s = before ++ part ++ after)
    (hi : before.length = i) (hj : i + part.length = j) : slice s i j = part := by
  subst h hi hj
  rw [slice, ← List.length_append, List.take_left, List.drop_left]

/-- The bits of a byte sequence around those of its byte `i`. -/
theorem bitsOf_eq_append_getD {p : Bytes} {i : Nat} (hi : i < p.length) :
    bitsOf p = bitsOf (p.take i) ++ bits (p.getD i 0#8) ++ bitsOf (p.drop (i + 1)) := by
  rw [List.getD_eq_getElem _ _ hi, List.append_assoc, ← bitsOf_cons, ← List.drop_eq_getElem_cons hi, ← bitsOf_append,
    List.take_append_drop]

/-- R70, start marker: bits 0 to 7 of a frame. -/
theorem slice_frameBits_start (p : Bytes) : slice (frameBits p) 0 8 = START :=
  slice_of_eq_append (before := []) (after := bodyOf p ++ END) (by simp [frameBits]) rfl rfl

/-- R70, payload: byte `i` follows the start marker and the `i` bytes before it. -/
theorem slice_frameBits_payload {p : Bytes} {i : Nat} (hi : i < p.length) :
    slice (frameBits p) (8 + 8 * i) (16 + 8 * i) = bits (p.getD i 0#8) := by
  refine slice_of_eq_append (before := START ++ bitsOf (p.take i))
    (after := bitsOf (p.drop (i + 1)) ++ bits (xorfold p) ++ END) ?_ ?_ ?_
  · simp only [frameBits, bodyOf, List.append_assoc, bitsOf_eq_append_getD hi]
  · simp [min_eq_left hi.le]
  · rw [bits_length]
    omega

/-- R70, checksum: the byte after the payload. -/
theorem slice_frameBits_checksum (p : Bytes) :
    slice (frameBits p) (8 * p.length + 8) (8 * p.length + 16) = bits (xorfold p) := by
  refine slice_of_eq_append (before := START ++ bitsOf p) (after := END) (by simp [frameBits, bodyOf]) ?_ rfl
  simp [Nat.add_comm]

/-- R70, end marker: the last 8 bits of a frame. -/
theorem slice_frameBits_end (p : Bytes) :
    slice (frameBits p) (8 * p.length + 16) (8 * p.length + 24) = END := by
  refine slice_of_eq_append (before := START ++ bodyOf p) (after := []) (by simp [frameBits]) ?_ rfl
  rw [List.length_append, START_length, bodyOf_length]
  omega

theorem exec_frame {s : State} (hf : s.fatal = false) :
    exec .frame s = .next (s.outRes (.framed (frameBits s.ports.bytes))) := by
  rw [exec_eq_runCommand]
  exact runCommand_admitted hf

/-- Settles O28: the frame on RES is `frameBits` of the payload, which has each field of R70 at its indices. -/
theorem frameHasTheOnAirLayout : Obligations.FrameHasTheOnAirLayout := fun s hf =>
  ⟨frameBits s.ports.bytes, exec_frame hf, frameBits_length _, slice_frameBits_start _,
    fun _ => slice_frameBits_payload, slice_frameBits_checksum _, slice_frameBits_end _⟩

/-! ### The command word -/

/-- R80: a command word is its opcode followed by its argument. -/
theorem opc_append_arg (w : Byte) : opc w ++ arg w = w := by
  exact (BitVec.extractLsb'_append_extractLsb'_eq_extractLsb' (by rfl)).trans BitVec.extractLsb'_eq_self

/-- R80: an argument is its three high bits followed by bit 0. -/
theorem extractLsb'_append_ofBool (a : BitVec 4) : a.extractLsb' 1 3 ++ BitVec.ofBool (a.getLsbD 0) = a := by
  revert a
  decide

theorem extractLsb'_arg (w : Byte) : (arg w).extractLsb' 1 3 = w.extractLsb' 1 3 := by
  refine BitVec.eq_of_getLsbD_eq fun i hi => ?_
  simp [arg, hi]

theorem getLsbD_arg_zero (w : Byte) : (arg w).getLsbD 0 = w.getLsbD 0 := by simp [arg]

/-- R80: the argument is 0 exactly when its three high bits and its bit 0 are. -/
theorem arg_eq_zero_iff (w : Byte) : arg w = 0#4 ↔ w.extractLsb' 1 3 = 0#3 ∧ w.getLsbD 0 = false := by
  rw [← extractLsb'_arg, ← getLsbD_arg_zero]
  generalize arg w = a
  revert a
  decide

/-! ### The decoder -/

theorem noArg_eq_ok_iff {i j : Instr} {a : BitVec 4} : noArg i a = .ok j ↔ a = 0#4 ∧ i = j := by
  by_cases h : a = 0#4 <;> simp [noArg, h]

theorem exists_noArg_eq_error_iff {i : Instr} {a : BitVec 4} : (∃ e, noArg i a = .error e) ↔ a ≠ 0#4 := by
  by_cases h : a = 0#4 <;> simp [noArg, h]

theorem decodeTone_eq_ok_iff {a : BitVec 4} {j : Instr} :
    decodeTone a = .ok j ↔ a.extractLsb' 1 3 = 0#3 ∧ .tone (a.getLsbD 0) = j := by
  by_cases h : a.extractLsb' 1 3 = 0#3 <;> simp [decodeTone, h]

theorem exists_decodeTone_eq_error_iff {a : BitVec 4} :
    (∃ e, decodeTone a = .error e) ↔ a.extractLsb' 1 3 ≠ 0#3 := by
  by_cases h : a.extractLsb' 1 3 = 0#3 <;> simp [decodeTone, h]

/-- Everything the decoder can do (R80, R82, R84): refuse a reserved opcode, read TONE's bit, or ask that the whole
argument of another command be 0. -/
theorem decode_cases (w : Byte) :
    ((opc w = 0x0#4 ∨ opc w = 0xF#4) ∧ decode w = .error .reservedOpcode) ∨
      (opc w = 0x2#4 ∧ decode w = decodeTone (arg w)) ∨
      (opc w ≠ 0x0#4 ∧ opc w ≠ 0xF#4 ∧ opc w ≠ 0x2#4) ∧
        ∃ i, decode w = noArg i (arg w) ∧ encode i = opc w ++ 0#4 := by
  unfold decode
  generalize opc w = o
  obtain ⟨k⟩ := o
  match k with
  | 0 => exact .inl ⟨.inl rfl, rfl⟩
  | 15 => exact .inl ⟨.inr rfl, rfl⟩
  | 2 => exact .inr (.inl ⟨rfl, rfl⟩)
  | 1 | 3 | 4 | 5 | 6 | 7 | 8 | 9 | 10 | 11 | 12 | 13 | 14 => exact .inr (.inr ⟨by decide, _, rfl, rfl⟩)
  | ⟨_ + 16, h⟩ => exact absurd h (by omega)

/-- R83: a word that decodes is the word of the command it decodes to. -/
theorem encode_eq_of_decode {w : Byte} {i : Instr} (h : decode w = .ok i) : encode i = w := by
  rw [← opc_append_arg w]
  rcases decode_cases w with ⟨-, hd⟩ | ⟨ho, hd⟩ | ⟨-, j, hd, hj⟩ <;> rw [hd] at h
  · contradiction
  · obtain ⟨high, rfl⟩ := decodeTone_eq_ok_iff.mp h
    rw [ho, ← extractLsb'_append_ofBool (arg w), high]
    cases (arg w).getLsbD 0 <;> rfl
  · obtain ⟨ha, rfl⟩ := noArg_eq_ok_iff.mp h
    rw [ha, hj]

/-- Settles O3: the decoder and the encoder are inverse to each other, and the words of R83 are those the encoder
gives. -/
theorem decoderReadsTheSpecWords : Obligations.DecoderReadsTheSpecWords :=
  ⟨decode_encode .cfgload, decode_encode (.tone ZERO), decode_encode (.tone ONE), decode_encode .domfreq,
    decode_encode .classify, decode_encode .frame, decode_encode .deframe, decode_encode .calibrate,
    decode_encode .modulate, decode_encode .encode, decode_encode .feed, decode_encode .scan, decode_encode .rxstart,
    decode_encode .rxchunk, decode_encode .rxstop,
    fun _ i => ⟨encode_eq_of_decode, fun h => h ▸ decode_encode i⟩⟩

/-! ### Refused commands -/

/-- R84: the decoder refuses exactly the words that are illegal by the fields of R80. -/
theorem exists_decode_eq_error_iff (w : Byte) : (∃ e, decode w = .error e) ↔
    opc w = 0x0#4 ∨ opc w = 0xF#4 ∨ w.extractLsb' 1 3 ≠ 0#3 ∨ (opc w ≠ 0x2#4 ∧ w.getLsbD 0 = true) := by
  rcases decode_cases w with ⟨ho, hd⟩ | ⟨ho, hd⟩ | ⟨⟨h0, hF, h2⟩, i, hd, -⟩
  · rw [hd, ← or_assoc]
    exact ⟨fun _ => .inl ho, fun _ => ⟨_, rfl⟩⟩
  · rw [hd, exists_decodeTone_eq_error_iff, extractLsb'_arg, ho]
    simp
  · rw [hd, exists_noArg_eq_error_iff, ne_eq, arg_eq_zero_iff]
    simp [h0, hF, h2, Decidable.imp_iff_not_or]

/-- Settles O4: the step that takes an illegal word drops it from the queue and reports it. -/
theorem illegalWordIsRefused : Obligations.IllegalWordIsRefused :=
  ⟨exists_decode_eq_error_iff, fun _ _ _ _ => step_of_illegal⟩

/-- R85: the commands that the value of RX_RUN shuts out. -/
theorem admitted_eq_false_iff {s : State} {i : Instr} : admitted s i = false ↔
    ((i = .rxchunk ∨ i = .rxstop) ∧ s.rxRun = false) ∨
      ((i = .rxstart ∨ i = .calibrate ∨ i = .cfgload) ∧ s.rxRun = true) := by
  cases i <;> simp [admitted]

/-- Settles O8: a command is refused while FATAL is 1 and where `admitted` says no. -/
theorem commandInTheWrongStateIsRefused : Obligations.CommandInTheWrongStateIsRefused := by
  intro i s h
  rw [exec_eq_runCommand]
  exact runCommand_refused (h.imp_right admitted_eq_false_iff.mpr)

end Sys2Proof.Machine

/-! PROOFS. The Symbol Codec (40_symbol_codec.md): the tone samples (R100 to R104), the magnitude spectrum and its
greatest bin (R108 to R113), and the classification of a frequency (R120 to R122). -/

namespace Sys2Proof.Machine

/-- A codec command has its effect in every state without a fatal error. -/
theorem exec_codec {i : Instr} {s : State} (hi : isCodec i = true) (hf : s.fatal = false) :
    exec i s = .next (effect s i) := by
  rw [exec_eq_runCommand, admitted_codec hi]
  exact runCommand_admitted hf

/-! ### Tones -/

/-- The sample numbers of a symbol are natural numbers, though `tone` writes their list in the rationals. -/
theorem tone_eq_map (p : Params) (c : ModemConfig) (b : Bit) : tone p c b =
    (List.range (nsym p c)).map fun n : Nat => quantSine p c.amp (carrier c b * (n : Rat) / c.fs) := by
  simp only [tone, List.bind_eq_flatMap, List.pure_def, ← List.map_eq_flatMap, List.map_map, Function.comp_def]

@[simp] theorem tone_length (p : Params) (c : ModemConfig) (b : Bit) : (tone p c b).length = nsym p c := by
  simp [tone_eq_map]

theorem tone_getElem? {p : Params} {c : ModemConfig} (b : Bit) {n : Nat} (hn : n < nsym p c) :
    (tone p c b)[n]? = some (quantSine p c.amp (carrier c b * (n : Rat) / c.fs)) := by
  simp [tone_eq_map, hn]

/-- Settles O19: what stands on WAVE is `tone` of the bit. -/
theorem toneDeliversTheSymbol : Obligations.ToneDeliversTheSymbol := fun s b hf =>
  ⟨tone s.params s.cfg b, exec_codec rfl hf, tone_length _ _ b, fun _ hn => tone_getElem? b hn⟩

/-! ### The arguments of a sample -/

theorem idealSine_sub_int (amp turns : Rat) (k : Int) : idealSine amp (turns - k) = idealSine amp turns := by
  have shifted : 2 * Real.pi * ((turns - k : Rat) : ℝ) = 2 * Real.pi * (turns : ℝ) - k * (2 * Real.pi) := by
    push_cast
    ring
  rw [idealSine, shifted, Real.sin_sub_int_mul_two_pi, idealSine]

theorem idealSine_zero_turns (amp : Rat) : idealSine amp 0 = 0 := by simp [idealSine]

theorem idealSine_half_turn (amp : Rat) : idealSine amp (1 / 2) = 0 := by
  have half : 2 * Real.pi * ((1 / 2 : Rat) : ℝ) = Real.pi := by
    push_cast
    ring
  rw [idealSine, half, Real.sin_pi, mul_zero]

theorem idealSine_zero_amp (turns : Rat) : idealSine 0 turns = 0 := by simp [idealSine]

/-- Dropping whole turns changes no sine, and where the arguments are reduced to `(0, 0)` the sine is 0. -/
theorem idealSine_sineArgs (amp turns : Rat) :
    idealSine (sineArgs amp turns).1 (sineArgs amp turns).2 = idealSine amp turns := by
  rw [← idealSine_sub_int amp turns turns.floor]
  unfold sineArgs
  dsimp only
  split
  · next h =>
    rw [idealSine_zero_turns]
    rcases h with rfl | h | h
    · rw [idealSine_zero_amp]
    · rw [h, idealSine_zero_turns]
    · rw [h, idealSine_half_turn]
  · rfl

theorem abs_idealSine_le {amp : Rat} (turns : Rat) (h : 0 ≤ amp) : |idealSine amp turns| ≤ amp := by
  rw [idealSine, abs_mul, abs_of_nonneg (by exact_mod_cast h)]
  exact mul_le_of_le_one_right (by exact_mod_cast h) (Real.abs_sin_le_one _)

theorem sineArgs_add_int (amp turns : Rat) (k : Int) : sineArgs amp (turns + k) = sineArgs amp turns := by
  have reduced : turns + k - ((turns + k).floor : Rat) = turns - (turns.floor : Rat) := by
    rw [Rat.floor_add_intCast]
    push_cast
    ring
  unfold sineArgs
  rw [reduced]

theorem sineArgs_zero_amp (turns : Rat) : sineArgs 0 turns = (0, 0) := by simp [sineArgs]

/-- A sample is determined by its reduced arguments. -/
theorem quantSine_congr (p : Params) {amp turns amp' turns' : Rat} (h : sineArgs amp turns = sineArgs amp' turns') :
    quantSine p amp turns = quantSine p amp' turns' := by
  unfold quantSine
  rw [h]

/-- R10, R100: in the ideal domain a sample is the real number itself. -/
theorem sampleValue_quantSine (env : Nat → ℝ) {p : Params} (amp turns : Rat) (hp : p.sampleDom = .ideal) :
    sampleValue env (quantSine p amp turns) = idealSine amp turns := by
  rw [← idealSine_sineArgs, quantSine, hp]
  exact sampleValue_ofSine env _ _

/-- R103: with amplitude 0 every sample of a symbol is the sample of 0. -/
theorem eq_quantSine_zero_of_mem_tone {p : Params} {c : ModemConfig} {b : Bit} {v : Sample} (hamp : c.amp = 0)
    (hv : v ∈ tone p c b) : v = quantSine p 0 0 := by
  obtain ⟨n, -, rfl⟩ := List.mem_map.mp (tone_eq_map p c b ▸ hv)
  rw [hamp]
  exact quantSine_congr p (by rw [sineArgs_zero_amp, sineArgs_zero_amp])

/-! ### Magnitudes -/

theorem silent_eq_true_iff {x : List Sample} : silent x = true ↔ ∀ v ∈ x, v = Sample.zero := by
  simp [silent]

/-- Over the sum of R110 the samples are those of the chunk: the default of `getD` is never taken. -/
theorem getD_mem_of_range {x : List Sample} {n : Nat} (hn : n ∈ Finset.range x.length) : x.getD n Sample.zero ∈ x := by
  rw [List.getD_eq_getElem _ _ (Finset.mem_range.mp hn)]
  exact List.getElem_mem _

theorem magnKey_nonneg (p : Params) (x : List Sample) (k : Nat) : 0 ≤ magnKey p x k := by
  unfold magnKey
  split
  · exact le_rfl
  · exact abs_nonneg _

theorem magnKey_of_silent (p : Params) {x : List Sample} (hx : silent x = true) (k : Nat) : magnKey p x k = 0 := by
  rw [magnKey, if_pos hx]

theorem magnitude_of_rational {p : Params} (hp : p.magnDom = .rational) (x : List Sample) (k : Nat) :
    magnitude p x k = .rational (magnKey p x k) := by
  rw [magnitude, hp]

theorem magnitude_of_ideal {p : Params} (hp : p.magnDom = .ideal) (x : List Sample) (k : Nat) :
    magnitude p x k = .absSum (spectrumSum p x k) := by
  rw [magnitude, hp]

/-- R108, R110: the terms of `spectrumSum` are those of the windowed Fourier sum. -/
theorem sum_termValue_spectrumSum (env : Nat → ℝ) (p : Params) (x : List Sample) (k : Nat) :
    ((spectrumSum p x k).map (termValue env)).sum = ∑ n ∈ Finset.range x.length,
      (sampleValue env (x.getD n Sample.zero) * idealHann (hannDenom p x.length) n : ℝ)
        * Complex.exp (-(2 * Real.pi * (k : ℝ) * (n : ℝ) / (x.length : ℝ) : ℝ) * Complex.I) := by
  rw [← List.toFinset_range, List.sum_toFinset _ List.nodup_range, spectrumSum, List.map_map]
  refine congrArg List.sum (List.map_congr_left fun n _ => ?_)
  simp only [Function.comp_apply, termValue, idealHann, Rat.cast_div, Rat.cast_mul, Rat.cast_natCast, mul_div_assoc',
    mul_assoc]

theorem magnitudeValue_of_ideal (env : Nat → ℝ) {p : Params} (hp : p.magnDom = .ideal) (x : List Sample) (k : Nat) :
    magnitudeValue env (magnitude p x k) = idealMagnitude env p x k := by
  rw [magnitude_of_ideal hp, magnitudeValue, sum_termValue_spectrumSum, idealMagnitude]

theorem magnitudeValue_nonneg (env : Nat → ℝ) (p : Params) (x : List Sample) (k : Nat) :
    0 ≤ magnitudeValue env (magnitude p x k) := by
  cases hp : p.magnDom with
  | ideal =>
    rw [magnitude_of_ideal hp]
    exact norm_nonneg _
  | rational =>
    rw [magnitude_of_rational hp]
    exact Rat.cast_nonneg.mpr (magnKey_nonneg p x k)

/-- A silent chunk: each sample, and so each term of the sum, stands for 0. -/
theorem idealMagnitude_of_silent (env : Nat → ℝ) (p : Params) {x : List Sample} (hx : silent x = true) (k : Nat) :
    idealMagnitude env p x k = 0 := by
  rw [idealMagnitude, Finset.sum_eq_zero fun n hn => ?_, norm_zero]
  rw [silent_eq_true_iff.mp hx _ (getD_mem_of_range hn), sampleValue_zero, zero_mul, Complex.ofReal_zero, zero_mul]

theorem magnitudeValue_of_silent (env : Nat → ℝ) (p : Params) {x : List Sample} (hx : silent x = true) (k : Nat) :
    magnitudeValue env (magnitude p x k) = 0 := by
  cases hp : p.magnDom with
  | ideal => rw [magnitudeValue_of_ideal env hp, idealMagnitude_of_silent env p hx]
  | rational => rw [magnitude_of_rational hp, magnitudeValue, magnKey_of_silent p hx, Rat.cast_zero]

/-- Settles O20: what the reduced arguments and the terms of the sum denote. -/
theorem numericArgumentsDenoteTheSpecReals : Obligations.NumericArgumentsDenoteTheSpecReals := by
  refine ⟨idealSine_sineArgs, fun env p amp turns hp => ⟨sampleValue_quantSine env amp turns hp, fun hamp => ?_⟩,
    fun p amp turns k => quantSine_congr p (sineArgs_add_int amp turns k),
    fun p c b v hamp hv => eq_quantSine_zero_of_mem_tone hamp hv,
    fun env p x k hp => magnitudeValue_of_ideal env hp x k, fun p x k hp => magnitude_of_rational hp x k,
    fun env p x k => ⟨magnKey_nonneg p x k, magnitudeValue_nonneg env p x k, fun hx => ?_⟩⟩
  · rw [sampleValue_quantSine env amp turns hp]
    exact abs_idealSine_le turns hamp
  · have hsilent := silent_eq_true_iff.mpr hx
    exact ⟨magnKey_of_silent p hsilent k, magnitudeValue_of_silent env p hsilent k⟩

/-! ### The least bin of greatest magnitude -/

section
variable {α β : Type} [LinearOrder α] [LinearOrder β] {mag : Nat → α} {bins : Nat → Prop} {j k : Nat}

/-- Of two such bins neither is less than the other. -/
theorem LeastGreatest.unique (hj : LeastGreatest mag bins j) (hk : LeastGreatest mag bins k) : j = k := by
  obtain ⟨binj, maxj, leastj⟩ := hj
  obtain ⟨bink, maxk, leastk⟩ := hk
  rcases lt_trichotomy j k with h | h | h
  · exact absurd (leastk j binj h) (maxj k bink).not_gt
  · exact h
  · exact absurd (leastj k bink h) (maxk j binj).not_gt

/-- The choice depends on the order of the magnitudes alone. -/
theorem LeastGreatest.of_le_iff {mag' : Nat → β} (h : LeastGreatest mag bins k)
    (hiff : ∀ i j, bins i → bins j → (mag i ≤ mag j ↔ mag' i ≤ mag' j)) : LeastGreatest mag' bins k := by
  obtain ⟨bink, greatest, least⟩ := h
  refine ⟨bink, fun j hj => (hiff j k hj bink).mp (greatest j hj), fun j hj hlt => ?_⟩
  rw [← not_le, ← hiff k j bink hj, not_le]
  exact least j hj hlt

/-- Where bin 0 is of greatest magnitude, it is the one that is chosen. -/
theorem LeastGreatest.eq_zero (h : LeastGreatest mag bins k) (bin0 : bins 0) (hmax : ∀ j, bins j → mag j ≤ mag 0) :
    k = 0 :=
  h.unique ⟨bin0, hmax, fun j _ hj => absurd hj (Nat.not_lt_zero j)⟩

end

/-- The fold of `firstMax` over rising bins keeps the least bin of greatest magnitude seen so far. -/
theorem foldl_leastGreatest (mag : Nat → Rat) (k : Nat) (ks : List Nat) (hks : (k :: ks).Pairwise (· < ·)) :
    LeastGreatest mag (· ∈ k :: ks) (ks.foldl (fun best j => if mag best < mag j then j else best) k) := by
  induction ks using List.reverseRecOn with
  | nil => simp [LeastGreatest]
  | append_singleton ks j ih =>
    rw [← List.cons_append, List.pairwise_append] at hks
    obtain ⟨rising, -, below⟩ := hks
    obtain ⟨hbest, greatest, least⟩ := ih rising
    rw [List.foldl_concat]
    set best := ks.foldl (fun best j => if mag best < mag j then j else best) k
    have mem_iff : ∀ i, i ∈ k :: (ks ++ [j]) ↔ i ∈ k :: ks ∨ i = j := by simp [or_assoc]
    simp only [LeastGreatest, mem_iff]
    split
    · next hlt =>
      refine ⟨.inr rfl, ?_, ?_⟩
      · rintro i (hi | rfl)
        · exact (greatest i hi).trans hlt.le
        · exact le_rfl
      · rintro i (hi | rfl) hij
        · exact (greatest i hi).trans_lt hlt
        · exact absurd hij (lt_irrefl _)
    · next hle =>
      refine ⟨.inl hbest, ?_, ?_⟩
      · rintro i (hi | rfl)
        · exact greatest i hi
        · exact not_lt.mp hle
      · rintro i (hi | rfl) hij
        · exact least i hi hij
        · exact absurd hij (below best hbest i (by simp)).not_gt

/-- R112, R157: of rising bins `firstMax` chooses the least of greatest magnitude. -/
theorem leastGreatest_of_firstMax {mag : Nat → Rat} {ks : List Nat} {k : Nat} (hks : ks.Pairwise (· < ·))
    (h : firstMax mag ks = some k) : LeastGreatest mag (· ∈ ks) k := by
  cases ks with
  | nil => contradiction
  | cons i is => exact Option.some.inj h ▸ foldl_leastGreatest mag i is hks

theorem firstMax_eq_none_iff {mag : Nat → Rat} {ks : List Nat} : firstMax mag ks = none ↔ ks = [] := by
  cases ks <;> simp [firstMax]

theorem mem_binsOf_iff {l k : Nat} : k ∈ binsOf l ↔ k ≤ l / 2 := by
  rw [binsOf, List.mem_range, Nat.lt_succ_iff]

theorem binsOf_pairwise_lt (l : Nat) : (binsOf l).Pairwise (· < ·) := List.pairwise_lt_range

/-- R111, R112: `kmax` is chosen over the whole spectrum. -/
theorem kmax_leastGreatest (p : Params) (x : List Sample) :
    LeastGreatest (magnKey p x) (fun j => j ≤ x.length / 2) (kmax p x) := by
  obtain ⟨k, hk⟩ : ∃ k, firstMax (magnKey p x) (binsOf x.length) = some k := by
    rw [← Option.ne_none_iff_exists', ne_eq, firstMax_eq_none_iff]
    exact List.ne_nil_of_mem (mem_binsOf_iff.mpr (Nat.zero_le _))
  have hchosen := leastGreatest_of_firstMax (binsOf_pairwise_lt _) hk
  simp only [mem_binsOf_iff] at hchosen
  rwa [kmax, hk, Option.getD_some]

/-- Where the numerics order the bins ideally, `kmax` is the least bin of greatest real magnitude. -/
theorem kmax_leastGreatest_ideal {env : Nat → ℝ} {p : Params} {x : List Sample} (h : MagnIdealOn env p x) :
    LeastGreatest (idealMagnitude env p x) (fun j => j ≤ x.length / 2) (kmax p x) :=
  (kmax_leastGreatest p x).of_le_iff h

/-! ### DOMFREQ -/

theorem domfreqOperandOk_iff {c : Chunk} : domfreqOperandOk c = true ↔ 2 ≤ c.length ∧ ∀ f ∈ c, 1 ≤ f.length := by
  simp [domfreqOperandOk]

theorem exec_domfreq {s : State} (hf : s.fatal = false) (hlen : 2 ≤ s.ports.samp.length)
    (hchan : ∀ f ∈ s.ports.samp, 1 ≤ f.length) : exec .domfreq s = .next { s with
      res := some (.frequency (domfreq s.params s.cfg.fs (mono s.ports.samp)))
      spec := some (spectrum s.params s.cfg.fs (mono s.ports.samp)) } := by
  rw [exec_codec rfl hf, effect, if_pos (domfreqOperandOk_iff.mpr ⟨hlen, hchan⟩)]
  rfl

/-- Settles O22: the check of R109 fails for such a chunk. -/
theorem domfreqRefusesAShortChunk : Obligations.DomfreqRefusesAShortChunk := by
  intro s hf hshort
  have refused : ¬ domfreqOperandOk s.ports.samp = true := by
    rw [domfreqOperandOk_iff]
    rintro ⟨hlen, hchan⟩
    rcases hshort with h | ⟨f, hmem, h⟩
    · omega
    · have := hchan f hmem
      omega
  rw [exec_codec rfl hf, effect, if_neg refused]
  rfl

/-- R111: a bin of the spectrum lies between 0 and half the sample rate. -/
theorem binFreq_nonneg {fs : Rat} (hfs : 0 < fs) (l k : Nat) : 0 ≤ binFreq fs l k :=
  div_nonneg (mul_nonneg (Nat.cast_nonneg k) hfs.le) (Nat.cast_nonneg l)

theorem binFreq_le_half {fs : Rat} (hfs : 0 < fs) {l k : Nat} (hl : 0 < l) (hk : k ≤ l / 2) :
    binFreq fs l k ≤ fs / 2 := by
  have double : (2 : Rat) * k ≤ l := by exact_mod_cast (by omega : 2 * k ≤ l)
  rw [binFreq, div_le_div_iff₀ (by exact_mod_cast hl) two_pos]
  linarith [mul_le_mul_of_nonneg_right double hfs.le]

@[simp] theorem binFreq_zero (fs : Rat) (l : Nat) : binFreq fs l 0 = 0 := by simp [binFreq]

/-- Settles O21: the bin on RES is `kmax`. -/
theorem domfreqDeliversTheLeastGreatestBin : Obligations.DomfreqDeliversTheLeastGreatestBin := by
  intro s hf hfs hlen hchan
  have hmax := kmax_leastGreatest s.params (mono s.ports.samp)
  have hexec := exec_domfreq hf hlen hchan
  rw [domfreq] at hexec
  rw [mono_length] at hmax hexec
  have ⟨hbin, _, _⟩ := hmax
  refine ⟨_, hmax, fun env hideal => ?_, hexec, binFreq_nonneg hfs _ _, binFreq_le_half hfs (by omega) hbin⟩
  rw [← mono_length]
  exact kmax_leastGreatest_ideal hideal

theorem domfreq_eq_zero {p : Params} (fs : Rat) {x : List Sample} (h : kmax p x = 0) : domfreq p fs x = 0 := by
  rw [domfreq, h, binFreq_zero]

/-! ### Silence, constant chunks, scaled chunks -/

theorem kmax_of_silent (p : Params) {x : List Sample} (hx : silent x = true) : kmax p x = 0 :=
  (kmax_leastGreatest p x).eq_zero (Nat.zero_le _) fun j _ => by
    rw [magnKey_of_silent p hx, magnKey_of_silent p hx]

theorem silent_mono {c : Chunk} (h : ∀ f ∈ c, ∀ v ∈ f, v = Sample.zero) : silent (mono c) = true :=
  silent_eq_true_iff.mpr (List.forall_mem_map.mpr fun f hf => mean_zeros (h f hf))

/-- Settles O23: every key and every magnitude of a silent chunk is 0, so bin 0 is the first of the greatest. -/
theorem silenceIsZeroHz : Obligations.SilenceIsZeroHz := by
  intro s hf hlen hzero
  have hsilent : silent (mono s.ports.samp) = true := silent_mono fun f hmem => (hzero f hmem).2
  refine ⟨_, _, exec_domfreq hf hlen fun f hmem => (hzero f hmem).1, ?_, rfl, ?_, fun env => ?_⟩
  · rw [domfreq_eq_zero _ (kmax_of_silent _ hsilent)]
  · simp [spectrum, binsOf]
  · exact List.forall_mem_map.mpr fun k _ => magnitudeValue_of_silent env s.params hsilent k

theorem idealHann_nonneg (d n : Nat) : 0 ≤ idealHann d n := by
  have := Real.cos_le_one (2 * Real.pi * (n : ℝ) / (d : ℝ))
  unfold idealHann
  linarith

/-- A factor of modulus 1, whatever the bin and the sample. -/
theorem norm_exp_neg_mul_I (φ : ℝ) : ‖Complex.exp (-(φ : ℂ) * Complex.I)‖ = 1 := by
  rw [← Complex.ofReal_neg, Complex.norm_exp_ofReal_mul_I]

/-- Of all bins of a constant chunk, bin 0 adds up the windowed samples without turning them. -/
theorem idealMagnitude_const_le_zero {env : Nat → ℝ} {p : Params} {x : List Sample} {r : ℝ}
    (hx : ∀ v ∈ x, sampleValue env v = r) (k : Nat) : idealMagnitude env p x k ≤ idealMagnitude env p x 0 := by
  set w : Nat → ℝ := idealHann (hannDenom p x.length)
  have value : ∀ n ∈ Finset.range x.length, sampleValue env (x.getD n Sample.zero) = r := fun n hn =>
    hx _ (getD_mem_of_range hn)
  calc idealMagnitude env p x k
      ≤ ∑ n ∈ Finset.range x.length, |r| * w n := by
        refine norm_sum_le_of_le _ fun n hn => ?_
        rw [value n hn, norm_mul, norm_exp_neg_mul_I, mul_one, Complex.norm_real, norm_mul, Real.norm_eq_abs,
          Real.norm_of_nonneg (idealHann_nonneg _ n)]
    _ = ‖((r * ∑ n ∈ Finset.range x.length, w n : ℝ) : ℂ)‖ := by
        rw [Complex.norm_real, norm_mul, Real.norm_eq_abs,
          Real.norm_of_nonneg (Finset.sum_nonneg fun n _ => idealHann_nonneg _ n), Finset.mul_sum]
    _ = idealMagnitude env p x 0 := by
        rw [idealMagnitude, Finset.mul_sum, Complex.ofReal_sum]
        refine congrArg norm (Finset.sum_congr rfl fun n hn => ?_)
        rw [value n hn]
        simp [w]

/-- Settles O24: no bin of a constant chunk is greater than bin 0. -/
theorem constantChunkIsZeroHz : Obligations.ConstantChunkIsZeroHz := by
  intro env s r hf hlen hchan hconst hideal
  have hzero : kmax s.params (mono s.ports.samp) = 0 :=
    (kmax_leastGreatest_ideal hideal).eq_zero (Nat.zero_le _) fun j _ => idealMagnitude_const_le_zero hconst j
  exact ⟨_, exec_domfreq hf hlen hchan, by rw [domfreq_eq_zero _ hzero]⟩

/-- The sample `w` stands for `a` times what `v` stands for. -/
def Scaled (env : Nat → ℝ) (a : ℝ) (v w : Sample) : Prop := sampleValue env w = a * sampleValue env v

theorem sum_sampleValue_scaled {env : Nat → ℝ} {a : ℝ} {f g : List Sample} (h : List.Forall₂ (Scaled env a) f g) :
    (g.map (sampleValue env)).sum = a * (f.map (sampleValue env)).sum := by
  induction h with
  | nil => simp
  | cons hv _ ih => rw [List.map_cons, List.map_cons, List.sum_cons, List.sum_cons, ih, hv, mul_add]

theorem monoFrame_scaled {env : Nat → ℝ} {a : ℝ} {f g : SampleFrame} (h : List.Forall₂ (Scaled env a) f g) :
    Scaled env a (monoFrame f) (monoFrame g) := by
  rw [Scaled, monoFrame, monoFrame, sampleValue_mean, sampleValue_mean, sum_sampleValue_scaled h, h.length_eq,
    mul_div_assoc]

theorem mono_scaled {env : Nat → ℝ} {a : ℝ} {c d : Chunk} (h : List.Forall₂ (List.Forall₂ (Scaled env a)) c d) :
    List.Forall₂ (Scaled env a) (mono c) (mono d) :=
  List.forall₂_map_left_iff.mpr (List.forall₂_map_right_iff.mpr (h.imp fun _ _ => monoFrame_scaled))

/-- The Fourier sum is linear in the samples. -/
theorem idealMagnitude_scaled {env : Nat → ℝ} {a : ℝ} {x y : List Sample} (h : List.Forall₂ (Scaled env a) x y)
    (p : Params) (k : Nat) : idealMagnitude env p y k = |a| * idealMagnitude env p x k := by
  have hlen : x.length = y.length := h.length_eq
  have value : ∀ n ∈ Finset.range y.length,
      sampleValue env (y.getD n Sample.zero) = a * sampleValue env (x.getD n Sample.zero) := fun n hn => by
    have hn : n < y.length := Finset.mem_range.mp hn
    rw [List.getD_eq_getElem _ _ hn, List.getD_eq_getElem _ _ (hlen ▸ hn)]
    exact h.get (hlen ▸ hn) hn
  rw [idealMagnitude, idealMagnitude, ← Real.norm_eq_abs, ← Complex.norm_real, ← norm_mul, Finset.mul_sum, hlen]
  refine congrArg norm (Finset.sum_congr rfl fun n hn => ?_)
  rw [value n hn]
  push_cast
  ring

/-- Settles O25: the factor `|a|` is positive, so the bins of both chunks stand in the same order. -/
theorem scaleLeavesTheDominantFrequency : Obligations.ScaleLeavesTheDominantFrequency := by
  intro env p fs c d a ha hscaled hc hd
  have hmono : List.Forall₂ (Scaled env a) (mono c) (mono d) := mono_scaled hscaled
  have hsame : LeastGreatest (idealMagnitude env p (mono c)) (fun j => j ≤ (mono c).length / 2) (kmax p (mono d)) := by
    rw [hmono.length_eq]
    refine (kmax_leastGreatest_ideal hd).of_le_iff fun i j _ _ => ?_
    rw [idealMagnitude_scaled hmono, idealMagnitude_scaled hmono]
    exact mul_le_mul_iff_right₀ (abs_pos.mpr ha)
  rw [domfreq, domfreq, hmono.length_eq, hsame.unique (kmax_leastGreatest_ideal hc)]

/-! ### Classification -/

theorem classify_zero {c : ModemConfig} {f : Rat} (h : |f - c.f0| ≤ c.tol) : classify c f = some ZERO := if_pos h

theorem classify_one {c : ModemConfig} {f : Rat} (h0 : ¬ |f - c.f0| ≤ c.tol) (h1 : |f - c.f1| ≤ c.tol) :
    classify c f = some ONE := by
  rw [classify, if_neg h0, if_pos h1]

theorem classify_none_iff {c : ModemConfig} {f : Rat} :
    classify c f = none ↔ ¬ |f - c.f0| ≤ c.tol ∧ ¬ |f - c.f1| ≤ c.tol := by
  unfold classify
  split
  · next h => simp [h]
  · next h =>
    split <;> simp_all

theorem exec_classify {s : State} (hf : s.fatal = false) :
    exec .classify s = .next { s with res := some (.classified (classify s.cfg s.ports.freq)) } :=
  exec_codec rfl hf

/-- Settles O26: the three outcomes of `classify`. -/
theorem classifyTestsTheClosedWindows : Obligations.ClassifyTestsTheClosedWindows := by
  intro s hf
  rw [exec_classify hf]
  exact ⟨fun h0 => by rw [classify_zero h0], fun h0 h1 => by rw [classify_one h0 h1],
    fun h0 h1 => by rw [classify_none_iff.mpr ⟨h0, h1⟩]⟩

/-- Conditions 6 and 8 of R211. -/
theorem tol_bounds_of_configValid {c : ModemConfig} (h : configValid c = true) :
    0 ≤ c.tol ∧ c.tol < |c.f0 - c.f1| / 2 := by
  simp only [configValid, configConditions, List.all_cons, Bool.and_eq_true, decide_eq_true_eq, id_eq] at h
  obtain ⟨-, -, -, -, -, htol, -, hapart, -⟩ := h
  exact ⟨htol, hapart⟩

/-- R121: the carriers are more than two tolerances apart. -/
theorem windows_disjoint {c : ModemConfig} (h : configValid c = true) (f : Rat) :
    ¬ (|f - c.f0| ≤ c.tol ∧ |f - c.f1| ≤ c.tol) := by
  rintro ⟨h0, h1⟩
  obtain ⟨-, hapart⟩ := tol_bounds_of_configValid h
  have := abs_sub_le c.f0 f c.f1
  rw [abs_sub_comm c.f0 f] at this
  linarith

/-- Settles O27: the ends of a window are `tol` from its carrier, and `f0 + tol + 1` is one more than that. -/
theorem classifyBoundaries : Obligations.ClassifyBoundaries := by
  intro c hc
  obtain ⟨htol, -⟩ := tol_bounds_of_configValid hc
  have upper : ∀ f, |f + c.tol - f| ≤ c.tol := fun f => by rw [add_sub_cancel_left, abs_of_nonneg htol]
  have lower : ∀ f, |f - c.tol - f| ≤ c.tol := fun f => by rw [sub_sub_cancel_left, abs_neg, abs_of_nonneg htol]
  have one_of_window1 : ∀ {f}, |f - c.f1| ≤ c.tol → classify c f = some ONE := fun h1 =>
    classify_one (fun h0 => windows_disjoint hc _ ⟨h0, h1⟩) h1
  have outside : ¬ |c.f0 + c.tol + 1 - c.f0| ≤ c.tol := by
    rw [show c.f0 + c.tol + 1 - c.f0 = c.tol + 1 by ring, abs_of_nonneg (by linarith)]
    linarith
  refine ⟨windows_disjoint hc, classify_zero (upper _), classify_zero (lower _), one_of_window1 (upper _),
    one_of_window1 (lower _), ?_⟩
  rw [classify_none_iff, not_le (a := |c.f0 + c.tol + 1 - c.f1|), and_iff_right outside]

end Sys2Proof.Machine

/-! PROOFS. The Frame Codec (41_frame_codec.md): the checksum (R131), DEFRAME (R135 to R138), what it makes of a frame
and of a frame with flipped bits (R140, R141), and the frame as the receiver reads it (R130, R180). -/

namespace Sys2Proof.Machine

/-! ### The checksum -/

@[simp] theorem xorfold_nil : xorfold [] = 0#8 := rfl

@[simp] theorem xorfold_concat (p : Bytes) (b : Byte) : xorfold (p ++ [b]) = xorfold p ^^^ b := by
  simp [xorfold]

theorem xorfold_append (p q : Bytes) : xorfold (p ++ q) = xorfold p ^^^ xorfold q := by
  induction q using List.reverseRecOn with
  | nil => simp
  | append_singleton q b ih => rw [← List.append_assoc, xorfold_concat, xorfold_concat, ih, BitVec.xor_assoc]

theorem xorfold_cons (b : Byte) (p : Bytes) : xorfold (b :: p) = b ^^^ xorfold p := by
  rw [← List.singleton_append, xorfold_append, ← List.nil_append [b], xorfold_concat, xorfold_nil, BitVec.zero_xor]

/-- Adding a bit to a sum changes its parity exactly when the bit is 1. -/
theorem odd_add_toNat (n : Nat) (b : Bool) : ((n + b.toNat) % 2 == 1) = ((n % 2 == 1) ^^ b) := by
  rcases Nat.mod_two_eq_zero_or_one n with h | h <;> cases b <;> simp [Nat.add_mod, h]

/-- R131: bit `j` of the checksum is the parity of bit `j` of all payload bytes. -/
theorem getLsbD_xorfold (p : Bytes) (j : Nat) :
    (xorfold p).getLsbD j = ((p.map fun b => (b.getLsbD j).toNat).sum % 2 == 1) := by
  induction p using List.reverseRecOn with
  | nil => simp
  | append_singleton p b ih =>
    rw [xorfold_concat, BitVec.getLsbD_xor, ih, List.map_append, List.sum_append, List.map_singleton,
      List.sum_singleton, odd_add_toNat]

/-- R131: a sum does not depend on the order of its terms, so neither does a column parity. -/
theorem xorfold_perm {p q : Bytes} (h : p.Perm q) : xorfold p = xorfold q := by
  refine BitVec.eq_of_getLsbD_eq fun j _ => ?_
  rw [getLsbD_xorfold, getLsbD_xorfold, (h.map _).sum_eq]

/-- R131: a payload followed by its checksum folds to 0x00. -/
theorem xorfold_concat_self (p : Bytes) : xorfold (p ++ [xorfold p]) = 0#8 := by
  rw [xorfold_concat, BitVec.xor_self]

/-- Settles O17: column parity, and the two consequences R131 draws from it. -/
theorem checksumIsColumnParity : Obligations.ChecksumIsColumnParity :=
  ⟨getLsbD_xorfold, fun _ _ => xorfold_perm, xorfold_concat_self⟩

/-! ### The bytes of a body -/

/-- R51: reading bytes from the bits of a byte sequence gives the sequence back. -/
@[simp] theorem bytesOf_bitsOf (p : Bytes) : bytesOf (bitsOf p) = p := by
  refine List.ext_getElem (by simp) fun i _ hi => ?_
  have byte : slice (bitsOf p) (8 * i) (8 * i + 8) = bits p[i] := by
    rw [← List.getD_eq_getElem p 0#8 hi]
    exact slice_of_eq_append (bitsOf_eq_append_getD hi) (by simp [min_eq_left hi.le]) rfl
  simp [bytesOf, byte]

/-- R135: the bytes of `m + 1` whole bytes are the first `m` and the last. -/
theorem bytesOf_of_length {B : Bits} {m : Nat} (h : B.length = 8 * (m + 1)) :
    bytesOf B = (List.range m).map (fun i => byteOf (slice B (8 * i) (8 * i + 8))) ++
      [byteOf (slice B (8 * m) (8 * m + 8))] := by
  have : B.length / 8 = m + 1 := by omega
  rw [bytesOf, this, List.range_succ, List.map_append, List.map_singleton]

/-- R70: the body of a frame is the payload followed by its checksum, written as bits. -/
theorem bodyOf_eq_bitsOf (p : Bytes) : bodyOf p = bitsOf (p ++ [xorfold p]) := by
  simp [bodyOf]

theorem bytesOf_bodyOf (p : Bytes) : bytesOf (bodyOf p) = p ++ [xorfold p] := by
  rw [bodyOf_eq_bitsOf, bytesOf_bitsOf]

theorem deframe_of_bytesOf {B : Bits} {payload : Bytes} {rc : Byte} (h : bytesOf B = payload ++ [rc]) :
    deframe B = ⟨payload, rc, xorfold payload == rc⟩ := by
  simp [deframe, h]

/-- R140: deframing the body of a frame. -/
theorem deframe_bodyOf (p : Bytes) : deframe (bodyOf p) = ⟨p, xorfold p, true⟩ := by
  rw [deframe_of_bytesOf (bytesOf_bodyOf p), beq_self_eq_true]

/-! ### DEFRAME -/

/-- Settles O30: the two checks on the length (R136, R137). -/
theorem deframeRefusesUnalignedAndEmpty : Obligations.DeframeRefusesUnalignedAndEmpty := by
  intro s hf
  rw [exec_codec rfl hf]
  exact ⟨fun hmod => by rw [effect, if_pos hmod]; rfl, fun hnil => by simp [effect, hnil, State.report]⟩

/-- R135, R138: DEFRAME of whole bytes, the last of them the received checksum. -/
theorem exec_deframe {s : State} {payload : Bytes} {rc : Byte} (hf : s.fatal = false)
    (hmod : s.ports.bits.length % 8 = 0) (h : bytesOf s.ports.bits = payload ++ [rc]) :
    exec .deframe s = .next { s with res := some (.deframed payload (xorfold payload == rc)) } := by
  have hpos : s.ports.bits.length ≠ 0 := by
    intro hnil
    rw [List.length_eq_zero_iff.mp hnil] at h
    simp [bytesOf] at h
  rw [exec_codec rfl hf, effect, if_neg (not_not.mpr hmod), if_neg hpos, deframe_of_bytesOf h]
  rfl

/-- Settles O29: the payload is the first `m` bytes, and the flag compares their checksum with the last one. -/
theorem deframeDeliversPayloadAndFlag : Obligations.DeframeDeliversPayloadAndFlag := by
  intro s m hf hlen
  refine ⟨_, _, exec_deframe hf (by omega) (bytesOf_of_length hlen), by simp, fun i hi => ?_, by rw [beq_iff_eq]⟩
  simp [hi]

/-- R70: between the markers of a frame stands its body. -/
theorem slice_frameBits_body (p : Bytes) : slice (frameBits p) 8 ((frameBits p).length - 8) = bodyOf p := by
  refine slice_of_eq_append (before := START) (after := END) rfl rfl ?_
  rw [bodyOf_length, frameBits_length]
  omega

/-- Settles O31: what stands between the markers is the body, and its bytes are the payload and its checksum. -/
theorem deframeUndoesFrame : Obligations.DeframeUndoesFrame := by
  intro s p F hf h
  obtain rfl : frameBits p = F := by
    simpa [State.outRes] using (exec_frame (s := { s with ports := { s.ports with bytes := p } }) hf).symm.trans h
  rw [slice_frameBits_body, ← beq_self_eq_true (xorfold p)]
  exact exec_deframe hf (by simp) (bytesOf_bodyOf p)

/-! ### Flipped bits -/

/-- The byte whose only 1 stands in the column of bit `i` of a bit sequence: the first bit of a byte is its most
significant one (R51). -/
def columnMask (i : Nat) : Byte := BitVec.twoPow 8 (7 - i % 8)

theorem getLsbD_columnMask (i : Nat) {c : Nat} (hc : c < 8) :
    (columnMask i).getLsbD (7 - c) = decide (i % 8 = c) := by
  rw [columnMask, BitVec.getLsbD_twoPow, ← Bool.decide_and, decide_eq_decide]
  omega

theorem columnMask_ne_zero (i : Nat) : columnMask i ≠ 0#8 := by
  intro h
  have bit := getLsbD_columnMask i (Nat.mod_lt i (by decide))
  simp [h] at bit

theorem columnMask_eq_iff {i j : Nat} : columnMask i = columnMask j ↔ i % 8 = j % 8 := by
  refine ⟨fun h => ?_, fun h => by rw [columnMask, columnMask, h]⟩
  have bit := getLsbD_columnMask i (Nat.mod_lt i (by decide))
  rw [h, getLsbD_columnMask j (Nat.mod_lt i (by decide)), decide_eq_decide] at bit
  exact (bit.mpr rfl).symm

/-- R51, R72: element `k` of the bits of a byte sequence is bit `7 - k mod 8` of byte `k / 8`. -/
theorem bitsOf_getElem? (y : Bytes) (k : Nat) :
    (bitsOf y)[k]? = y[k / 8]?.map fun b => b.getLsbD (7 - k % 8) := by
  induction y generalizing k with
  | nil => simp
  | cons b y ih =>
    rw [bitsOf_cons]
    by_cases hk : k < 8
    · rw [List.getElem?_append_left (by simpa using hk), bits_getElem? b hk, Nat.div_eq_of_lt hk, Nat.mod_eq_of_lt hk]
      rfl
    · obtain ⟨k, rfl⟩ := Nat.exists_eq_add_of_le' (not_lt.mp hk)
      rw [List.getElem?_append_right (by simp), bits_length, Nat.add_sub_cancel, ih, Nat.add_mod_right,
        Nat.add_div_right k (by decide), List.getElem?_cons_succ]

theorem xorfold_modify {y : Bytes} {k : Nat} (hk : k < y.length) (mask : Byte) :
    xorfold (y.modify k (· ^^^ mask)) = xorfold y ^^^ mask := by
  induction y generalizing k with
  | nil => simp at hk
  | cons b y ih =>
    cases k with
    | zero =>
      rw [List.modify_zero_cons, xorfold_cons, xorfold_cons, BitVec.xor_assoc, BitVec.xor_assoc, BitVec.xor_comm mask]
    | succ k =>
      rw [List.modify_succ_cons, xorfold_cons, xorfold_cons, ih (by simpa using hk), BitVec.xor_assoc]

/-- The bytes with bit `i` of their bits flipped; `bitsOf_flipBit` ties it to the flip itself. -/
def flipBit (y : Bytes) (i : Nat) : Bytes := y.modify (i / 8) (· ^^^ columnMask i)

@[simp] theorem flipBit_length (y : Bytes) (i : Nat) : (flipBit y i).length = y.length := List.length_modify ..

theorem xorfold_flipBit {y : Bytes} {i : Nat} (hi : i < 8 * y.length) :
    xorfold (flipBit y i) = xorfold y ^^^ columnMask i :=
  xorfold_modify (by omega) _

theorem bitsOf_flipBit (y : Bytes) (i : Nat) : bitsOf (flipBit y i) = (bitsOf y).modify i (!·) := by
  refine List.ext_getElem? fun k => ?_
  rw [flipBit, List.getElem?_modify, bitsOf_getElem?, bitsOf_getElem?, List.getElem?_modify]
  cases y[k / 8]? with
  | none => rfl
  | some b =>
    have column := getLsbD_columnMask i (Nat.mod_lt k (by decide))
    by_cases hbyte : i / 8 = k / 8
    · have same : i % 8 = k % 8 ↔ i = k := by omega
      by_cases hk : i = k
      · subst hk
        simp [column]
      · simp [hbyte, hk, same, column]
    · have hk : i ≠ k := fun h => hbyte (congrArg (· / 8) h)
      simp [hbyte, hk]

/-- A checksum agrees exactly when payload and checksum together fold to 0x00. -/
theorem xorfold_beq_eq (p : Bytes) (rc : Byte) : (xorfold p == rc) = (xorfold (p ++ [rc]) == 0#8) := by
  rw [xorfold_concat, beq_eq_beq, BitVec.xor_eq_zero_iff]

/-- R135: DEFRAME of the bits of bytes that are not empty: valid exactly when the bytes fold to 0x00. -/
theorem exec_deframe_bitsOf {s : State} {y : Bytes} (hf : s.fatal = false) (hy : 0 < y.length)
    (h : s.ports.bits = bitsOf y) :
    exec .deframe s = .next { s with res := some (.deframed y.dropLast (xorfold y == 0#8)) } := by
  have hy := List.ne_nil_of_length_pos hy
  have bytes : bytesOf s.ports.bits = y.dropLast ++ [y.getLast hy] := by
    rw [h, bytesOf_bitsOf, List.dropLast_append_getLast]
  rw [exec_deframe hf (by simp [h]) bytes, xorfold_beq_eq, List.dropLast_append_getLast]

section
variable {s : State} {y : Bytes} {i j : Nat}

/-- R141: one flip in bytes that fold to 0x00 leaves the mask of its column, which is not 0x00. -/
theorem exec_deframe_oneFlip (hf : s.fatal = false) (fold : xorfold y = 0#8) (hi : i < 8 * y.length)
    (h : s.ports.bits = (bitsOf y).modify i (!·)) :
    exec .deframe s = .next { s with res := some (.deframed (flipBit y i).dropLast false) } := by
  rw [← bitsOf_flipBit] at h
  rw [exec_deframe_bitsOf hf (by rw [flipBit_length]; omega) h, xorfold_flipBit hi, fold, BitVec.zero_xor,
    beq_false_of_ne (columnMask_ne_zero i)]

/-- R141: two flips leave the sum of the masks of their columns, which is 0x00 when the columns are one. -/
theorem exec_deframe_twoFlips (hf : s.fatal = false) (fold : xorfold y = 0#8) (hi : i < 8 * y.length)
    (hj : j < 8 * y.length) (h : s.ports.bits = ((bitsOf y).modify i (!·)).modify j (!·)) :
    exec .deframe s =
      .next { s with res := some (.deframed (flipBit (flipBit y i) j).dropLast (i % 8 == j % 8)) } := by
  rw [← bitsOf_flipBit, ← bitsOf_flipBit] at h
  have cancel : (columnMask i ^^^ columnMask j == 0#8) = (i % 8 == j % 8) := by
    rw [beq_eq_beq, BitVec.xor_eq_zero_iff, columnMask_eq_iff]
  rw [exec_deframe_bitsOf hf (by rw [flipBit_length, flipBit_length]; omega) h,
    xorfold_flipBit (by rwa [flipBit_length]), xorfold_flipBit hi, fold, BitVec.zero_xor, cancel]

/-- Two flips at different places leave the first of them flipped. -/
theorem flipBit_flipBit_ne (hi : i < 8 * y.length) (hij : i ≠ j) : flipBit (flipBit y i) j ≠ y := by
  intro h
  have flipped := congrArg (fun z => (bitsOf z)[i]?) h
  have hi : i < (bitsOf y).length := by rwa [bitsOf_length]
  simp [bitsOf_flipBit, hij.symm, List.getElem?_eq_getElem hi] at flipped

end

/-- Bytes that deframe to `p` with a valid checksum are the bytes of the body of `p`'s frame. -/
theorem eq_concat_xorfold {y p : Bytes} (hy : 0 < y.length) (hp : y.dropLast = p) (fold : xorfold y = 0#8) :
    y = p ++ [xorfold p] := by
  have bytes := List.dropLast_append_getLast (List.ne_nil_of_length_pos hy)
  rw [hp] at bytes
  rw [← bytes, xorfold_concat, BitVec.xor_eq_zero_iff] at fold
  rw [fold, bytes]

/-- Settles O32: the bytes of a body fold to 0x00, a flip adds the mask of its column, and two masks cancel exactly when
they are of one column; with the payload right and the checksum valid, no bit would be flipped. -/
theorem checksumSeesSingleFlips : Obligations.ChecksumSeesSingleFlips := by
  rintro s p B hf rfl
  have fold := xorfold_concat_self p
  rw [← bodyOf, bodyOf_eq_bitsOf, bitsOf_length]
  refine ⟨fun i hi h => ⟨_, exec_deframe_oneFlip hf fold hi h⟩, fun i j hi hj hij h =>
    ⟨_, exec_deframe_twoFlips hf fold hi hj h, fun hcolumn hq => flipBit_flipBit_ne hi hij ?_⟩⟩
  refine eq_concat_xorfold (by simp) hq ?_
  rw [xorfold_flipBit (by rwa [flipBit_length]), xorfold_flipBit hi, fold, columnMask_eq_iff.mpr hcolumn,
    BitVec.zero_xor, BitVec.xor_self]

/-! ### The frame as the receiver reads it -/

/-- What stands before a sequence shifts the place of what is found in it. -/
theorem find_append {before s pat : Bits} {start i : Nat} (h : find s pat start = some i) :
    find (before ++ s) pat (before.length + start) = some (before.length + i) := by
  have shifted : ∀ k, slice (before ++ s) (before.length + k) (before.length + k + pat.length) =
      slice s k (k + pat.length) := by
    intro k
    rw [← List.drop_left (l₁ := before) (l₂ := s), slice_drop, Nat.add_assoc, List.drop_left]
  rw [find_eq_some_iff] at h ⊢
  obtain ⟨⟨hstart, hfit, hpat⟩, least⟩ := h
  rw [List.length_append, shifted]
  refine ⟨⟨by omega, by omega, hpat⟩, fun j hji hj hfit => ?_⟩
  obtain ⟨k, rfl⟩ := Nat.exists_eq_add_of_le (Nat.le_of_add_right_le hj)
  rw [shifted]
  exact least k (by omega) (by omega) (by omega)

/-- A START after at most 7 bits is the leftmost: an earlier one would have its ZERO among the ONEs of this one. -/
theorem find_START_append {b rest : Bits} (h : b.length ≤ 7) :
    find (b ++ START ++ rest) START 0 = some b.length := by
  refine find_eq_some_iff.mpr ⟨⟨Nat.zero_le _, by simp, slice_of_eq_append rfl rfl rfl⟩, fun j hj _ _ hstart => ?_⟩
  have zero : (b ++ START ++ rest)[j + 7]? = START[7]? := by
    have last := congrArg (fun s : List Bool => s[7]?) hstart
    rwa [slice, List.getElem?_drop, List.getElem?_take, if_pos (by simp)] at last
  have ones : ∀ k, k < 7 → START[k]? = some ONE := by decide
  rw [List.append_assoc, List.getElem?_append_right (by omega), List.getElem?_append_left (by simp; omega),
    ones _ (by omega)] at zero
  exact absurd zero (by decide)

/-- The scanner's one call on a frame after at most 7 bits, whose body holds no END before its end (R179). -/
theorem scan1_frame {b body : Bits} (hb : b.length ≤ 7) (hbody : find (body ++ END) END 0 = some body.length) :
    scan1 (b ++ (START ++ body ++ END)) = (some body, []) := by
  have hend : find (b ++ (START ++ body ++ END)) END (b.length + 8) = some (b.length + 8 + body.length) := by
    simpa using find_append (before := b ++ START) hbody
  have hstart : find (b ++ (START ++ body ++ END)) START 0 = some b.length := by
    simpa using find_START_append (rest := body ++ END) hb
  have hslice : slice (b ++ (START ++ body ++ END)) (b.length + 8) (b.length + 8 + body.length) = body :=
    slice_of_eq_append (before := b ++ START) (after := END) (by simp) (by simp) rfl
  simp only [scan1, hstart, hend, hslice, sliceFrom]
  rw [List.drop_eq_nil_of_le (by simp; omega)]

/-- The event of a frame with a valid checksum, by what `Post` makes of its payload (R184). -/
def postEvent : Option Bytes → Event
  | some r => .frameOk r
  | none => .confidentialityError

/-- R183, R184: handling the body of a frame passes its checks, so `Post` is called with the payload. -/
theorem handle_bodyOf (s : State) (p : Bytes) : s.handle (bodyOf p) = { s with
    post := s.post.tail, calls := s.calls ++ [.post p]
    evt := s.evt ++ [postEvent ((s.post.headD .identity).apply p)] } := by
  rw [State.handle, if_neg (by simp), if_neg (by simp), deframe_bodyOf]
  simp only [State.callPost, Bool.not_true, Bool.false_eq_true, if_false]
  cases (s.post.headD .identity).apply p <;> rfl

theorem drainLoop_of_emit {s : State} {body rest : Bits} (fuel : Nat) (h : scan1 s.bitbuf = (some body, rest)) :
    drainLoop (fuel + 1) s = drainLoop fuel ((s.setBitbuf rest).handle body) := by
  rw [drainLoop, h]

theorem drainLoop_of_normalForm {s : State} (fuel : Nat) (h : normalForm s.bitbuf = true) : drainLoop fuel s = s := by
  cases fuel with
  | zero => rfl
  | succ fuel =>
    rw [drainLoop, scan1_of_normalForm h]
    rfl

/-- Settles O46: the first pass of the drain cuts out the body, and nothing is left for a second. -/
theorem feedOfAFrameDeliversThePayload : Obligations.FeedOfAFrameDeliversThePayload := by
  intro s p hf hS hbits hend
  obtain ⟨-, hlen⟩ := formS_iff.mp hS
  have emit : scan1 (s.setBitbuf (s.bitbuf ++ frameBits p)).bitbuf = (some (bodyOf p), []) := scan1_frame hlen hend
  have fed : exec .feed s = .next (s.appendAndDrain s.ports.bits) := runCommand_admitted hf
  rw [fed, hbits, State.appendAndDrain, State.drain, drainLoop_of_emit _ emit,
    drainLoop_of_normalForm _ (by rw [handle_bitbuf]; rfl), handle_bodyOf]
  rfl

end Sys2Proof.Machine

/-! PROOFS. The Calibrator (42_calibrator.md): the operand checks and the opening of the capture (R151 to R153), the two
bins a calibration chooses and what it delivers (R150, R154 to R158), and what CALIBRATE and the other commands of the
control and receive families leave unchanged (R159, R160). -/

namespace Sys2Proof.Machine

/-! ### The frames of the commands that are no codec commands -/

/-- Settles O58: a refused command only reports, and an admitted one has the frame of its effect. -/
theorem receiveAndControlFrames : Obligations.ReceiveAndControlFrames := by
  intro i s t h
  rcases exec_cases h with ⟨-, rfl⟩ | ⟨-, hadm, rfl⟩
  · exact ⟨fun _ => rfl, fun _ => rfl, fun _ => rfl, fun _ => rfl, fun _ => rfl, fun _ => rfl, fun _ => rfl⟩
  · refine ⟨?feed, ?scan, ?rxstart, ?rxchunk, ?rxstop, ?calibrate, ?cfgload⟩ <;> rintro rfl
    case feed => exact appendAndDrain_frame s s.ports.bits
    case scan => rfl
    case rxstart =>
      rcases rxstartOpen_cases (s := s) (by simpa using hadm) with ⟨-, h⟩ | ⟨-, h⟩ <;> simp only [effect, h]
    case rxchunk =>
      rcases effect_rxchunk_cases s with ⟨-, h⟩ | ⟨-, h⟩ <;> rw [h]
      · rfl
      · rw [rxRead_frame]
    case rxstop => rfl
    case calibrate => exact effect_calibrate_frame (by simpa using hadm)
    case cfgload => rcases effect_cfgload_cases (s := s) (by simpa using hadm) with ⟨-, h⟩ | ⟨_, h⟩ <;> rw [h]

/-! ### The operand checks and the opening of the capture -/

theorem exec_calibrate {s : State} (hf : s.fatal = false) (hrun : s.rxRun = false) :
    exec .calibrate s = .next (effect s .calibrate) := by
  rw [exec_eq_runCommand, admitted_calibrate, hrun]
  exact runCommand_admitted hf

theorem calibrateCount_of_bounds {c : CalIn} (p : Params) (fs : Rat) (hw : 0 < c.windowSeconds)
    (hmin : 0 ≤ c.minFreq) : calibrateCount p fs c = sampleCount p (fs * c.windowSeconds) :=
  if_neg (not_or.mpr ⟨hw.not_ge, hmin.not_gt⟩)

theorem calibrateCount_eq_none_iff {p : Params} {fs : Rat} {c : CalIn} : calibrateCount p fs c = none ↔
    c.windowSeconds ≤ 0 ∨ c.minFreq < 0 ∨ sampleCount p (fs * c.windowSeconds) = none := by
  rw [calibrateCount, ← or_assoc]
  split
  · next h => simp [h]
  · next h => simp [h]

/-- R151, R152: a bad operand is refused before the capture is opened. -/
theorem exec_calibrate_refused {s : State} (hf : s.fatal = false) (hrun : s.rxRun = false)
    (h : calibrateCount s.params s.cfg.fs s.ports.calin = none) :
    exec .calibrate s = .next { s with evt := s.evt ++ [.operandError 0x70#8] } := by
  simp only [exec_calibrate hf hrun, effect, h]
  rfl

theorem exec_calibrate_open {s : State} {m : Nat} (hf : s.fatal = false) (hrun : s.rxRun = false)
    (h : calibrateCount s.params s.cfg.fs s.ports.calin = some m) :
    exec .calibrate s = .next (calibrateOpen m s.ports.calin.minFreq s) := by
  simp only [exec_calibrate hf hrun, effect, h]

theorem calibrateRead_of_lt {s : State} {count : Nat} (minFreq : Rat) (h : s.mic.frames.length < count) :
    calibrateRead count minFreq s = { s with busy := some (.calibrate count minFreq) } := by
  rcases calibrateRead_cases count minFreq s with ⟨-, hread⟩ | ⟨hle, -⟩
  · exact hread
  · exact absurd h hle.not_gt

/-- Settles O35: the operand checks, then the opening of the capture, then the read. -/
theorem calibrateRefusesFailsOrWaits : Obligations.CalibrateRefusesFailsOrWaits := by
  refine fun s hf hrun => ⟨fun hbad => exec_calibrate_refused hf hrun (calibrateCount_eq_none_iff.mpr hbad),
    fun m hw hmin hm => ?_⟩
  rw [exec_calibrate_open hf hrun ((calibrateCount_of_bounds _ _ hw hmin).trans hm)]
  rcases calibrateOpen_cases hrun m s.ports.calin.minFreq with ⟨hopen, h⟩ | ⟨hclosed, h⟩ <;> rw [h]
  · exact ⟨fun hclosed => by simp [hopen] at hclosed, fun _ hfew => by rw [calibrateRead_of_lt _ (by exact hfew)]⟩
  · exact ⟨fun _ => rfl, fun hopen => by simp [hclosed] at hopen⟩

/-! ### The two bins of greatest magnitude -/

/-- Bin `k` of a capture of `m` samples lies at or above `minFreq`: R154's `K`, with the frequency of a bin written out
as the obligations write it. -/
def CalibrationBin (fs minFreq : Rat) (m k : Nat) : Prop := k ≤ m / 2 ∧ minFreq ≤ (k : Rat) * fs / (m : Rat)

theorem mem_binsFrom_iff {fs minFreq : Rat} {m k : Nat} :
    k ∈ binsFrom fs m minFreq ↔ CalibrationBin fs minFreq m k := by
  rw [binsFrom, List.mem_filter, mem_binsOf_iff, decide_eq_true_eq, binFreq, CalibrationBin]

theorem binsFrom_pairwise_lt (fs minFreq : Rat) (m : Nat) : (binsFrom fs m minFreq).Pairwise (· < ·) :=
  (binsOf_pairwise_lt m).filter _

/-- R157: of rising bins, none are chosen where there are no two, and otherwise the least of greatest magnitude and the
least of greatest magnitude among the rest. -/
theorem twoGreatest_cases (mag : Nat → Rat) {ks : List Nat} (hks : ks.Pairwise (· < ·)) :
    (twoGreatest mag ks = none ∧ ∀ i ∈ ks, ∀ j ∈ ks, i = j) ∨
      ∃ k1 k2, twoGreatest mag ks = some (k1, k2) ∧ LeastGreatest mag (· ∈ ks) k1 ∧
        LeastGreatest mag (fun k => k ∈ ks ∧ k ≠ k1) k2 := by
  unfold twoGreatest
  cases h1 : firstMax mag ks with
  | none => exact .inl ⟨rfl, by simp [firstMax_eq_none_iff.mp h1]⟩
  | some k1 =>
    dsimp only
    cases h2 : firstMax mag (ks.filter fun k => k != k1) with
    | none =>
      have only : ∀ i ∈ ks, i = k1 := by simpa using firstMax_eq_none_iff.mp h2
      exact .inl ⟨rfl, fun i hi j hj => (only i hi).trans (only j hj).symm⟩
    | some k2 =>
      have second := leastGreatest_of_firstMax (hks.filter _) h2
      simp only [List.mem_filter, bne_iff_ne] at second
      exact .inr ⟨k1, k2, rfl, leastGreatest_of_firstMax hks h1, second⟩

/-- `k1` and `k2` are the two bins of greatest `mag` at or above `minFreq`, least bin first on ties (R157). -/
def TwoGreatestBins {α : Type} [LE α] [LT α] (mag : Nat → α) (fs minFreq : Rat) (m k1 k2 : Nat) : Prop :=
  LeastGreatest mag (CalibrationBin fs minFreq m) k1 ∧
    LeastGreatest mag (fun k => CalibrationBin fs minFreq m k ∧ k ≠ k1) k2

/-- The frequency of bin `k` as CALIBRATE delivers it, rounded to the nearest Hz (R150). -/
def roundedBin (p : Params) (fs : Rat) (m k : Nat) : Int := roundQ p.roundTie ((k : Rat) * fs / (m : Rat))

/-- Everything an analysis can find: no two bins at or above `minFreq`, or two that round alike or apart (R156). -/
theorem analyse_cases (p : Params) (fs minFreq : Rat) (x : List Sample) :
    (analyse p fs minFreq x = .failed .tooFewBins ∧ ∀ k1 k2, CalibrationBin fs minFreq x.length k1 →
        CalibrationBin fs minFreq x.length k2 → k1 = k2) ∨
      ∃ k1 k2, TwoGreatestBins (magnKey p x) fs minFreq x.length k1 k2 ∧
        (roundedBin p fs x.length k1 = roundedBin p fs x.length k2 ∧
            analyse p fs minFreq x = .failed .degenerate ∨
          roundedBin p fs x.length k1 ≠ roundedBin p fs x.length k2 ∧
            analyse p fs minFreq x = .pair (min (roundedBin p fs x.length k1) (roundedBin p fs x.length k2))
              (max (roundedBin p fs x.length k1) (roundedBin p fs x.length k2))) := by
  unfold analyse
  rcases twoGreatest_cases (magnKey p x) (binsFrom_pairwise_lt fs minFreq x.length) with
    ⟨h, alone⟩ | ⟨k1, k2, h, first, second⟩ <;> rw [h]
  · simp only [mem_binsFrom_iff] at alone
    exact .inl ⟨rfl, fun k1 k2 h1 h2 => alone k1 h1 k2 h2⟩
  · simp only [mem_binsFrom_iff] at first second
    refine .inr ⟨k1, k2, ⟨first, second⟩, ?_⟩
    by_cases hround : roundedBin p fs x.length k1 = roundedBin p fs x.length k2
    · exact .inl ⟨hround, if_pos hround⟩
    · exact .inr ⟨hround, if_neg hround⟩

/-! ### What a calibration delivers -/

/-- The events an analysis ends in; `calibrateFinish_eq` ties it to CALIBRATE. -/
def CalResult.events : CalResult → List Event
  | .failed cause => [.calibrationError cause]
  | .pair _ _ => []

/-- What an analysis leaves at RES, where `old` stood before. -/
def CalResult.res (old : Option Result) : CalResult → Option Result
  | .failed _ => old
  | .pair low high => some (.carriers low high)

theorem calibrateFinish_eq (minFreq : Rat) (chunk : Chunk) (ovf : Bool) (s : State) :
    calibrateFinish minFreq chunk ovf s = { s with
      calls := s.calls ++ [.captureClose]
      evt := s.evt ++ (if ovf = true then [.captureOverflow] else []) ++
        (analyse s.params s.cfg.fs minFreq (mono chunk)).events
      res := (analyse s.params s.cfg.fs minFreq (mono chunk)).res s.res } := by
  rcases calibrateFinish_cases minFreq chunk ovf s with ⟨cause, ha, h⟩ | ⟨low, high, ha, h⟩ <;>
    simp [h, ha, CalResult.events, CalResult.res]

section
variable {α β : Type} [LinearOrder α] [LinearOrder β] {mag : Nat → α} {fs minFreq : Rat} {m k1 k2 : Nat}

/-- The choice is one pair of bins. -/
theorem TwoGreatestBins.unique {j1 j2 : Nat} (hj : TwoGreatestBins mag fs minFreq m j1 j2)
    (hk : TwoGreatestBins mag fs minFreq m k1 k2) : j1 = k1 ∧ j2 = k2 := by
  obtain ⟨firstj, secondj⟩ := hj
  obtain ⟨firstk, secondk⟩ := hk
  obtain rfl := firstj.unique firstk
  exact ⟨rfl, secondj.unique secondk⟩

/-- The choice depends on the order of the magnitudes alone. -/
theorem TwoGreatestBins.of_le_iff {mag' : Nat → β} (h : TwoGreatestBins mag fs minFreq m k1 k2)
    (hiff : ∀ i j, i ≤ m / 2 → j ≤ m / 2 → (mag i ≤ mag j ↔ mag' i ≤ mag' j)) :
    TwoGreatestBins mag' fs minFreq m k1 k2 := by
  obtain ⟨first, second⟩ := h
  exact ⟨first.of_le_iff fun i j ⟨hi, _⟩ ⟨hj, _⟩ => hiff i j hi hj,
    second.of_le_iff fun i j ⟨⟨hi, _⟩, _⟩ ⟨⟨hj, _⟩, _⟩ => hiff i j hi hj⟩

end

/-- R150, R156, R157: what follows from the two bins an analysis finds. -/
theorem analyse_pairOfGreatest (p : Params) (fs minFreq : Rat) (x : List Sample) (old : Option Result) :
    PairOfGreatest (magnKey p x) p fs minFreq x.length old (analyse p fs minFreq x).events
      ((analyse p fs minFreq x).res old) := by
  intro k1 k2 first second
  have hk : TwoGreatestBins (magnKey p x) fs minFreq x.length k1 k2 := ⟨first, second⟩
  rcases analyse_cases p fs minFreq x with ⟨-, alone⟩ | ⟨j1, j2, hj, houtcome⟩
  · obtain ⟨⟨bin1, -⟩, ⟨bin2, hne⟩, -⟩ := hk
    exact absurd (alone k2 k1 bin2 bin1) hne
  · obtain ⟨rfl, rfl⟩ := hj.unique hk
    rcases houtcome with ⟨hround, h⟩ | ⟨hround, h⟩ <;> rw [h]
    · exact ⟨fun _ => ⟨rfl, rfl⟩, fun hne => absurd hround hne⟩
    · exact ⟨fun heq => absurd heq hround, fun _ => ⟨rfl, rfl⟩⟩

/-- An analysis meets R150 to R157, also in ideal arithmetic where the numerics order the bins as that does. -/
theorem analyse_yields (p : Params) (fs minFreq : Rat) (x : List Sample) (old : Option Result) :
    CalibrationYields p fs minFreq x.length x old (analyse p fs minFreq x).events
      ((analyse p fs minFreq x).res old) := by
  have hpair := analyse_pairOfGreatest p fs minFreq x old
  refine ⟨hpair, fun env hideal k1 k2 first second => ?_, fun alone => ?_⟩
  · have hk : TwoGreatestBins (idealMagnitude env p x) fs minFreq x.length k1 k2 := ⟨first, second⟩
    obtain ⟨first, second⟩ := hk.of_le_iff (mag' := magnKey p x) fun i j hi hj => (hideal i j hi hj).symm
    exact hpair k1 k2 first second
  · rcases analyse_cases p fs minFreq x with ⟨h, -⟩ | ⟨k1, k2, ⟨⟨⟨hk1, hmin1⟩, -⟩, ⟨⟨hk2, hmin2⟩, hne⟩, -⟩, -⟩
    · rw [h]
      exact ⟨rfl, rfl⟩
    · exact absurd (alone k2 k1 hk2 hk1 hmin2 hmin1) hne

/-- R150, R153: a read that has its capture, the capture closed, and the analysis of what was read. -/
theorem calibrateRead_yields {s : State} {count : Nat} (minFreq : Rat) (h : count ≤ s.mic.frames.length) :
    ∃ (es : List Event) (r : Option Result), calibrateRead count minFreq s = { s with
        calls := s.calls ++ [.captureRead count, .captureClose]
        mic := ⟨s.mic.frames.drop count, false⟩
        busy := none
        evt := s.evt ++ (if s.mic.ovf = true then [.captureOverflow] else []) ++ es
        res := r } ∧
      CalibrationYields s.params s.cfg.fs minFreq count (mono (s.mic.frames.take count)) s.res es r := by
  have hyields := analyse_yields s.params s.cfg.fs minFreq (mono (s.mic.frames.take count)) s.res
  rw [mono_length, List.length_take_of_le h] at hyields
  obtain ⟨-, hread⟩ := (calibrateRead_cases count minFreq s).resolve_left fun hlt => hlt.1.not_ge h
  refine ⟨_, _, ?_, hyields⟩
  simp only [hread, calibrateFinish_eq, List.append_assoc, List.singleton_append]

/-- Settles O36: both a CALIBRATE that finds its capture there and one that waited for it end in the same read. -/
theorem calibrateDeliversTheTwoGreatestBins : Obligations.CalibrateDeliversTheTwoGreatestBins := by
  refine ⟨fun s m hf hrun hw hmin hm hopen hlen => ?_, fun s m minFreq hr hb => ?_⟩
  · obtain ⟨es, r, hread, hyields⟩ := calibrateRead_yields
      (s := { s with calls := s.calls ++ [.captureOpen true] }) s.ports.calin.minFreq hlen
    obtain ⟨-, hopened⟩ := (calibrateOpen_cases hrun m s.ports.calin.minFreq).resolve_right (by simp [hopen])
    refine ⟨es, r, ?_, hyields⟩
    rw [exec_calibrate_open hf hrun ((calibrateCount_of_bounds _ _ hw hmin).trans hm), hopened, hread]
    simp only [List.append_assoc, List.singleton_append]
  · rw [step_of_busy hr hb, State.resume_calibrate]
    refine ⟨fun hfew => ?_, fun hlen => ?_⟩
    · rw [calibrateRead_of_lt (s := s.beginStep) minFreq hfew, ← hb]
      rfl
    · obtain ⟨es, r, hread, hyields⟩ := calibrateRead_yields (s := s.beginStep) minFreq hlen
      exact ⟨es, r, by rw [hread]; rfl, hyields⟩

/-! ### The carrier pair -/

/-- `low` and `high` are in order, and nearest integers of two bins at or above `minFreq` of a capture of `m` samples
(R154, R158). -/
def PairOfBins (fs minFreq : Rat) (m : Nat) (low high : Int) : Prop :=
  low < high ∧ ∃ k1 k2 : Nat, k1 ≤ m / 2 ∧ k2 ≤ m / 2 ∧ k1 ≠ k2 ∧
    minFreq ≤ (k1 : Rat) * fs / (m : Rat) ∧ minFreq ≤ (k2 : Rat) * fs / (m : Rat) ∧
    |(low : Rat) - (k1 : Rat) * fs / (m : Rat)| ≤ 1 / 2 ∧ |(high : Rat) - (k2 : Rat) * fs / (m : Rat)| ≤ 1 / 2

/-- Two bins are nearest to their rounded frequencies, whichever of these is the smaller. -/
theorem pairOfBins_of_lt {p : Params} {fs minFreq : Rat} {m k1 k2 : Nat} (h1 : CalibrationBin fs minFreq m k1)
    (h2 : CalibrationBin fs minFreq m k2) (hlt : roundedBin p fs m k1 < roundedBin p fs m k2) :
    PairOfBins fs minFreq m (roundedBin p fs m k1) (roundedBin p fs m k2) := by
  obtain ⟨hk1, hmin1⟩ := h1
  obtain ⟨hk2, hmin2⟩ := h2
  refine ⟨hlt, k1, k2, hk1, hk2, ?_, hmin1, hmin2, abs_roundQ_sub_le _ _, abs_roundQ_sub_le _ _⟩
  rintro rfl
  exact lt_irrefl _ hlt

theorem pairOfBins_of_analyse {p : Params} {fs minFreq : Rat} {x : List Sample} {low high : Int}
    (h : analyse p fs minFreq x = .pair low high) : PairOfBins fs minFreq x.length low high := by
  rcases analyse_cases p fs minFreq x with ⟨h', -⟩ | ⟨k1, k2, ⟨⟨bin1, -⟩, ⟨bin2, -⟩, -⟩, ⟨-, h'⟩ | ⟨hne, h'⟩⟩ <;>
    rw [h] at h'
  · contradiction
  · contradiction
  · obtain ⟨rfl, rfl⟩ := CalResult.pair.inj h'
    rcases hne.lt_or_gt with hlt | hlt
    · rw [min_eq_left hlt.le, max_eq_right hlt.le]
      exact pairOfBins_of_lt bin1 bin2 hlt
    · rw [min_eq_right hlt.le, max_eq_left hlt.le]
      exact pairOfBins_of_lt bin2 bin1 hlt

/-- A read that delivers a pair had its capture. -/
theorem calibrateRead_delivers {s : State} {count : Nat} {minFreq : Rat} {low high : Int} (hnone : s.res = none)
    (h : (calibrateRead count minFreq s).res = some (.carriers low high)) :
    PairOfBins s.cfg.fs minFreq count low high ∧ .captureRead count ∈ (calibrateRead count minFreq s).calls := by
  rcases calibrateRead_cases count minFreq s with ⟨-, hread⟩ | ⟨hle, hread⟩ <;> rw [hread] at h ⊢
  · simp [hnone] at h
  · rw [calibrateFinish_eq] at h ⊢
    cases ha : analyse s.params s.cfg.fs minFreq (mono (s.mic.frames.take count)) with
    | failed cause => simp [ha, CalResult.res, hnone] at h
    | pair low' high' =>
      obtain ⟨rfl, rfl⟩ : low' = low ∧ high' = high := by simpa [ha, CalResult.res] using h
      have hpair := pairOfBins_of_analyse ha
      rw [mono_length, List.length_take_of_le hle] at hpair
      exact ⟨hpair, by simp⟩

theorem effect_calibrate_delivers {s : State} {low high : Int} (hrun : s.rxRun = false) (hnone : s.res = none)
    (h : (effect s .calibrate).res = some (.carriers low high)) :
    ∃ m, calibrateCount s.params s.cfg.fs s.ports.calin = some m ∧
      PairOfBins s.cfg.fs s.ports.calin.minFreq m low high ∧ .captureRead m ∈ (effect s .calibrate).calls := by
  cases hm : calibrateCount s.params s.cfg.fs s.ports.calin with
  | none => simp [effect, hm, hnone] at h
  | some m =>
    simp only [effect, hm] at h ⊢
    rcases calibrateOpen_cases hrun m s.ports.calin.minFreq with ⟨-, hopen⟩ | ⟨-, hopen⟩ <;> rw [hopen] at h ⊢
    · exact ⟨m, rfl, calibrateRead_delivers
        (s := { s with calls := s.calls ++ [.captureOpen true] }) hnone h⟩
    · simp [hnone] at h

/-- What a codec command delivers is no pair of carriers. -/
theorem effect_codec_res_ne_carriers {i : Instr} {s : State} (hi : isCodec i = true) (hnone : s.res = none)
    (low high : Int) : (effect s i).res ≠ some (.carriers low high) := by
  cases i with
  | tone | classify | frame | modulate | encode => simp [effect, hnone]
  | domfreq | deframe =>
    simp only [effect]
    split_ifs <;> simp [hnone]
  | _ => contradiction

/-- R150: of all commands CALIBRATE alone delivers a pair of carriers. -/
theorem eq_calibrate_of_delivers {i : Instr} {s t : State} {low high : Int} (h : exec i s = .next t)
    (hnone : s.res = none) (hres : t.res = some (.carriers low high)) : i = .calibrate := by
  have moved : t.res ≠ s.res := by simp [hres, hnone]
  obtain ⟨feed, -, rxstart, rxchunk, rxstop, -, cfgload⟩ := receiveAndControlFrames i s t h
  cases i using instr_cases with
  | codec i hi =>
    rcases exec_cases h with ⟨-, rfl⟩ | ⟨-, -, rfl⟩
    · exact absurd rfl moved
    · exact absurd hres (effect_codec_res_ne_carriers hi hnone low high)
  | cfgload => exact absurd (congrArg State.res (cfgload rfl)) moved
  | calibrate => rfl
  | feed => exact absurd (congrArg State.res (feed rfl)) moved
  | scan =>
    rcases exec_cases h with ⟨-, rfl⟩ | ⟨-, -, rfl⟩
    · exact absurd rfl moved
    · simp [effect, scanResult] at hres
  | rxstart => exact absurd (congrArg State.res (rxstart rfl)) moved
  | rxchunk => exact absurd (congrArg State.res (rxchunk rfl)) moved
  | rxstop => exact absurd (congrArg State.res (rxstop rfl)) moved

theorem exec_calibrate_delivers {s t : State} {low high : Int} (h : exec .calibrate s = .next t) (hnone : s.res = none)
    (hres : t.res = some (.carriers low high)) :
    ∃ m, calibrateCount s.params s.cfg.fs s.ports.calin = some m ∧
      PairOfBins s.cfg.fs s.ports.calin.minFreq m low high ∧ .captureRead m ∈ t.calls := by
  rcases exec_cases h with ⟨-, rfl⟩ | ⟨-, hadm, rfl⟩
  · simp [hnone] at hres
  · exact effect_calibrate_delivers (by simpa using hadm) hnone hres

/-- The step takes or goes on with a CALIBRATE of `m` sample frames and `minFreq`. -/
def State.Calibrates (s : State) (m : Nat) (minFreq : Rat) : Prop :=
  s.busy = some (.calibrate m minFreq) ∨
    ∃ c rest, s.Takes c rest ∧ decode c.word = .ok .calibrate ∧ minFreq = c.operands.calin.minFreq ∧
      calibrateCount s.params s.cfg.fs c.operands.calin = some m

/-- Nothing stands at RES when a step begins, and of what a step can do only a CALIBRATE puts a pair there. -/
theorem step_delivers {s t : State} {low high : Int} (h : step s = .next t)
    (hres : t.res = some (.carriers low high)) :
    ∃ m minFreq, s.Calibrates m minFreq ∧ PairOfBins s.cfg.fs minFreq m low high ∧ .captureRead m ∈ t.calls := by
  rcases step_cases h with ⟨-, rfl⟩ | ⟨-, b, hb, rfl⟩ | ⟨-, -, -, rfl⟩ | ⟨c, rest, e, -, -, rfl⟩ |
    ⟨c, rest, i, u, ht, hd, hu, rfl⟩ <;> rw [State.endStep_res] at hres <;> rw [State.endStep_calls]
  · simp [resetCore_eq] at hres
  · cases b with
    | rxchunk =>
      rw [State.resume_rxchunk, rxRead_frame] at hres
      simp at hres
    | calibrate m minFreq => exact ⟨m, minFreq, .inl hb, calibrateRead_delivers (s := s.beginStep) rfl hres⟩
  · simp at hres
  · simp at hres
  · obtain rfl := eq_calibrate_of_delivers hu rfl hres
    obtain ⟨m, hm, hpair, hread⟩ := exec_calibrate_delivers hu rfl hres
    exact ⟨m, _, .inr ⟨c, rest, ht, hd, rfl, hm⟩, hpair, hread⟩

/-- Settles O37: a step that delivers a pair is one of a CALIBRATE, and the pair is what its analysis found. -/
theorem carrierPairIsOrdered : Obligations.CarrierPairIsOrdered := by
  intro s t low high h hres
  obtain ⟨m, minFreq, hcalibrates, ⟨hlt, hbins⟩, hread⟩ := step_delivers h hres
  exact ⟨hlt, m, minFreq, hcalibrates, hread, hbins⟩

end Sys2Proof.Machine

/-! PROOFS. The Transmit Pipeline (43_transmit_pipeline.md): the samples of MODULATE (R165, R166) and ENCODE as FRAME
followed by MODULATE (R167, R168). -/

namespace Sys2Proof.Machine

/-! ### The tones of a bit sequence -/

@[simp] theorem toneBits_nil (p : Params) (c : ModemConfig) : toneBits p c [] = [] := rfl

@[simp] theorem toneBits_cons (p : Params) (c : ModemConfig) (b : Bit) (s : Bits) :
    toneBits p c (b :: s) = tone p c b ++ toneBits p c s := rfl

@[simp] theorem toneBits_length (p : Params) (c : ModemConfig) (s : Bits) :
    (toneBits p c s).length = s.length * nsym p c := by
  induction s with
  | nil => simp
  | cons b s ih => rw [toneBits_cons, List.length_append, tone_length, ih, List.length_cons, Nat.succ_mul, Nat.add_comm]

/-- R165: the first NSYM samples are those of the first bit, and the rest is the waveform of the rest, NSYM later. -/
theorem toneBits_getElem? {p : Params} {c : ModemConfig} {s : Bits} {j : Nat} (hj : j < s.length * nsym p c) :
    (toneBits p c s)[j]? = (tone p c (s.getD (j / nsym p c) false))[j % nsym p c]? := by
  induction s generalizing j with
  | nil => simp at hj
  | cons b s ih =>
    rw [toneBits_cons]
    rcases lt_or_ge j (nsym p c) with first | later
    · rw [List.getElem?_append_left (by rwa [tone_length]), Nat.div_eq_of_lt first, Nat.mod_eq_of_lt first,
        List.getD_cons_zero]
    · obtain ⟨k, rfl⟩ := Nat.exists_eq_add_of_le' later
      rw [List.length_cons, Nat.succ_mul, Nat.add_lt_add_iff_right] at hj
      have hn : 0 < nsym p c := Nat.pos_of_lt_mul_left hj
      rw [List.getElem?_append_right (by rwa [tone_length]), tone_length, Nat.add_sub_cancel, ih hj,
        Nat.add_div_right k hn, Nat.add_mod_right, List.getD_cons_succ]

/-- R166: the waveform is empty for the empty bit sequence and for symbols of no sample, and for nothing else. -/
theorem toneBits_eq_nil_iff {p : Params} {c : ModemConfig} {s : Bits} :
    toneBits p c s = [] ↔ s = [] ∨ nsym p c = 0 := by
  rw [← List.length_eq_zero_iff, toneBits_length, Nat.mul_eq_zero, List.length_eq_zero_iff]

theorem frameBits_ne_nil (p : Bytes) : frameBits p ≠ [] :=
  List.ne_nil_of_length_pos (by rw [frameBits_length]; omega)

/-! ### MODULATE and ENCODE -/

/-- What TONE puts on WAVE. -/
theorem samples_of_exec_tone {s t : State} {b : Bit} {v : Waveform} (hf : s.fatal = false)
    (h : exec (.tone b) s = .next t) (hv : t.wave = some v) : v.samples = tone s.params s.cfg b := by
  obtain rfl : effect s (.tone b) = t := Host.Outcome.next.inj ((exec_codec rfl hf).symm.trans h)
  obtain rfl := Option.some.inj hv
  rfl

/-- Settles O33: the waveform is `toneBits` of the operand, and TONE delivers `tone` of a bit. -/
theorem modulateConcatenatesTones : Obligations.ModulateConcatenatesTones := fun s hf =>
  ⟨toneBits s.params s.cfg s.ports.bits, exec_codec rfl hf, toneBits_length _ _ _, fun _ hj _ _ ht hv => by
    rw [toneBits_getElem? hj, samples_of_exec_tone hf ht hv]⟩

/-- Settles O34: with `frameBits` of the payload at BITS, MODULATE has the effect of ENCODE on WAVE; a frame is never
empty, so only symbols of no sample leave the waveform empty. -/
theorem encodeIsFrameThenModulate : Obligations.EncodeIsFrameThenModulate := fun s hf =>
  ⟨frameBits s.ports.bytes, toneBits s.params s.cfg (frameBits s.ports.bytes), exec_frame hf, exec_codec rfl hf,
    exec_codec rfl hf, by rw [toneBits_length, frameBits_length],
    toneBits_eq_nil_iff.trans (or_iff_right (frameBits_ne_nil _))⟩

end Sys2Proof.Machine

/-! PROOFS. The Receive Pipeline (44_receive_pipeline.md): the scanner's one call (R176 to R179), the handling of a
frame (R182 to R184), the drain and FEED (R180, R181, R187 to R189), and the receive loop (R190 to R196). -/

namespace Sys2Proof.Machine

/-! ### One scanner call -/

theorem exec_scan {s : State} (hf : s.fatal = false) :
    exec .scan s = .next { s with bitbuf := (scan1 s.bitbuf).2, res := some (scanResult (scan1 s.bitbuf)) } :=
  runCommand_admitted hf

theorem scan1_of_noStart {b : Bits} (h : find b START 0 = none) : scan1 b = (none, b.drop (b.length - 7)) := by
  have keep : b.length - min b.length 7 = b.length - 7 := by omega
  simp only [scan1, h, sliceFrom, keep]

theorem scan1_of_openFrame {b : Bits} {a : Nat} (ha : find b START 0 = some a) (he : find b END (a + 8) = none) :
    scan1 b = (none, b.drop a) := by
  simp only [scan1, ha, he, sliceFrom]

theorem scan1_of_frame {b : Bits} {a e : Nat} (ha : find b START 0 = some a) (he : find b END (a + 8) = some e) :
    scan1 b = (some (slice b (a + 8) e), b.drop (e + 8)) := by
  simp only [scan1, ha, he, sliceFrom]

/-- A body that is emitted was found between its markers. -/
theorem markers_of_scan1_some {b body rest : Bits} (h : scan1 b = (some body, rest)) :
    ∃ a e, find b START 0 = some a ∧ find b END (a + 8) = some e ∧ a + 8 ≤ e ∧ e + 8 ≤ b.length ∧
      slice b (a + 8) e = body ∧ b.drop (e + 8) = rest := by
  rcases scan1_cases b with ⟨-, h'⟩ | ⟨_, -, -, h'⟩ | ⟨a, e, ha, he, hle, hfit, h'⟩ <;>
    rw [h', Prod.mk.injEq] at h <;> obtain ⟨hbody, hrest⟩ := h
  · contradiction
  · contradiction
  · exact ⟨a, e, ha, he, hle, hfit, Option.some.inj hbody, hrest⟩

/-- Settles O38: the three outcomes of a scanner call. -/
theorem scanMakesOneCall : Obligations.ScanMakesOneCall := by
  intro s hf
  rw [exec_scan hf]
  refine ⟨fun h => ?_, fun a ha he => ?_, fun a e ha he => ?_⟩
  · rw [scan1_of_noStart h]
    rfl
  · rw [scan1_of_openFrame ha he]
    rfl
  · rw [scan1_of_frame ha he]
    rfl

/-! ### Marker search in a part of a sequence -/

theorem slice_append_left {s : Bits} (after : Bits) (i : Nat) {j : Nat} (h : j ≤ s.length) :
    slice (s ++ after) i j = slice s i j := by
  rw [slice, List.take_append_of_le_length h, slice]

theorem take_append_slice (s : Bits) {i j : Nat} (h : i ≤ j) : s.take i ++ slice s i j = s.take j := by
  have := List.take_append_drop i (s.take j)
  rwa [List.take_take, min_eq_left h] at this

/-- What stands after a sequence adds no place before the first place in it. -/
theorem find_eq_some_iff_append {s pat : Bits} (after : Bits) {start i : Nat} :
    find s pat start = some i ↔ find (s ++ after) pat start = some i ∧ i + pat.length ≤ s.length := by
  rw [find_eq_some_iff, find_eq_some_iff, List.length_append]
  constructor
  · rintro ⟨⟨hstart, hfit, hpat⟩, least⟩
    refine ⟨⟨⟨hstart, by omega, by rwa [slice_append_left after i hfit]⟩, fun j hji hj _ => ?_⟩, hfit⟩
    rw [slice_append_left after j (by omega)]
    exact least j hji hj (by omega)
  · rintro ⟨⟨⟨hstart, -, hpat⟩, least⟩, hfit⟩
    rw [slice_append_left after i hfit] at hpat
    refine ⟨⟨hstart, hfit, hpat⟩, fun j hji hj hjfit => ?_⟩
    rw [← slice_append_left after j hjfit]
    exact least j hji hj (by omega)

/-- What stands before a sequence shifts the place of what is found in it, if anything is. -/
theorem find_append_eq_map (before s pat : Bits) (start : Nat) :
    find (before ++ s) pat (before.length + start) = (find s pat start).map (before.length + ·) := by
  cases h : find s pat start with
  | some i => exact find_append h
  | none =>
    by_contra found
    obtain ⟨i, hi⟩ := Option.ne_none_iff_exists'.mp found
    obtain ⟨hstart, hfit, hpat⟩ := find_some hi
    obtain ⟨k, rfl⟩ := Nat.exists_eq_add_of_le (Nat.le_of_add_right_le hstart)
    rw [Nat.add_assoc, ← slice_drop, List.drop_left] at hpat
    rw [List.length_append] at hfit
    exact find_eq_none_iff.mp h k (by omega) (by omega) hpat

/-- With one more bit, a pattern that was not there can stand at the very end only. -/
theorem end_of_find_concat {s pat : Bits} {b : Bit} {start i : Nat} (hnone : find s pat start = none)
    (h : find (s ++ [b]) pat start = some i) : i + pat.length = s.length + 1 := by
  obtain ⟨-, hfit, -⟩ := find_some h
  rw [List.length_append, List.length_singleton] at hfit
  by_contra hne
  have inside := (find_eq_some_iff_append [b]).mpr ⟨h, by omega⟩
  simp [hnone] at inside

/-! ### The body between the markers -/

/-- An end marker found after the start marker at `a` closes the body that begins at `a + 8`. -/
theorem eq_append_of_markers {b : Bits} {a e : Nat} (ha : find b START 0 = some a)
    (he : find b END (a + 8) = some e) :
    b = b.take a ++ START ++ slice b (a + 8) e ++ END ++ b.drop (e + 8) := by
  obtain ⟨-, -, hstart⟩ := find_some ha
  obtain ⟨hle, -, hend⟩ := find_some he
  rw [START_length] at hstart
  rw [END_length] at hend
  calc b = b.take (e + 8) ++ b.drop (e + 8) := (List.take_append_drop _ _).symm
    _ = b.take a ++ slice b a (a + 8) ++ slice b (a + 8) e ++ slice b e (e + 8) ++ b.drop (e + 8) := by
      rw [take_append_slice b (by omega), take_append_slice b hle, take_append_slice b (by omega)]
    _ = _ := by rw [hstart, hend]

/-- Of the body and what follows it, the END found after START is the first. -/
theorem find_END_from_body {b : Bits} {a e : Nat} (ha : find b START 0 = some a)
    (he : find b END (a + 8) = some e) :
    find (slice b (a + 8) e ++ END ++ b.drop (e + 8)) END 0 = some (slice b (a + 8) e).length := by
  obtain ⟨-, hstart, -⟩ := find_some ha
  obtain ⟨-, hend, -⟩ := find_some he
  rw [START_length] at hstart
  rw [END_length] at hend
  have hshift := find_append_eq_map (b.take a ++ START) (slice b (a + 8) e ++ END ++ b.drop (e + 8)) END 0
  rw [← List.append_assoc, ← List.append_assoc, ← eq_append_of_markers ha he, List.length_append, START_length,
    List.length_take_of_le (by omega), Nat.add_zero, he] at hshift
  obtain ⟨i, hi, hei⟩ := Option.map_eq_some_iff.mp hshift.symm
  rw [hi, slice_length, Option.some_inj]
  omega

/-- Before the END that closes it a body holds none. -/
theorem find_END_body_of_append {body rest : Bits} (h : find (body ++ END ++ rest) END 0 = some body.length) :
    find body END 0 = none ∧ find (body ++ END) END 0 = some body.length := by
  have hend : find (body ++ END) END 0 = some body.length :=
    (find_eq_some_iff_append rest).mpr ⟨h, by simp⟩
  refine ⟨Option.eq_none_iff_forall_ne_some.mpr fun i hi => ?_, hend⟩
  obtain ⟨hi, hfit⟩ := (find_eq_some_iff_append END).mp hi
  rw [hend, Option.some_inj] at hi
  rw [END_length] at hfit
  omega

/-- Settles O39: the body begins after START, and the END found from there is the first in body and END. -/
theorem scannedBodyStandsBetweenTheMarkers : Obligations.ScannedBodyStandsBetweenTheMarkers := by
  intro buf body rest h
  obtain ⟨a, e, ha, he, hle, hfit, rfl, rfl⟩ := markers_of_scan1_some h
  have hjunk : (buf.take a).length = a := List.length_take_of_le (by omega)
  obtain ⟨hnone, hfirst⟩ := find_END_body_of_append (find_END_from_body ha he)
  refine ⟨buf.take a, eq_append_of_markers ha he, by rw [hjunk, ha], hnone, hfirst, ?_⟩
  rw [slice_length, List.length_drop]
  omega

/-! ### Handling a frame -/

theorem handle_unaligned {body : Bits} (s : State) (h : body.length % 8 ≠ 0) :
    s.handle body = { s with evt := s.evt ++ [.unalignedBody body.length] } := if_pos h

theorem handle_nil (s : State) : s.handle [] = { s with evt := s.evt ++ [.emptyBody] } := rfl

theorem handle_mismatch {body : Bits} (s : State) (h8 : body.length % 8 = 0) (hne : body ≠ [])
    (hvalid : (deframe body).valid = false) : s.handle body = { s with
      evt := s.evt ++ [.checksumMismatch (deframe body).received (xorfold (deframe body).payload)] } := by
  rw [State.handle, if_neg (not_not.mpr h8), if_neg (mt List.length_eq_zero_iff.mp hne)]
  simp only [hvalid]
  rfl

theorem handle_valid {body : Bits} (s : State) (h8 : body.length % 8 = 0) (hne : body ≠ [])
    (hvalid : (deframe body).valid = true) : s.handle body = { s with
      post := s.post.tail, calls := s.calls ++ [.post (deframe body).payload]
      evt := s.evt ++ [postEvent ((s.post.headD .identity).apply (deframe body).payload)] } := by
  rw [State.handle, if_neg (not_not.mpr h8), if_neg (mt List.length_eq_zero_iff.mp hne)]
  simp only [hvalid, State.callPost, Bool.not_true, Bool.false_eq_true, if_false]
  cases (s.post.headD .identity).apply (deframe body).payload <;> rfl

theorem deframe_bitsOf_append (p : Bytes) (rc : Byte) :
    deframe (bitsOf p ++ bits rc) = ⟨p, rc, xorfold p == rc⟩ :=
  deframe_of_bytesOf (by simpa using bytesOf_bitsOf (p ++ [rc]))

/-- Settles O41: the two checks on the length, then the checksum, then `Post`. -/
theorem handleChecksInOrder : Obligations.HandleChecksInOrder := by
  refine fun s body => ⟨handle_unaligned s, fun hnil => hnil ▸ handle_nil s, ?_⟩
  rintro p rc rfl
  have h8 : (bitsOf p ++ bits rc).length % 8 = 0 := by simp
  have hne : bitsOf p ++ bits rc ≠ [] := List.ne_nil_of_length_pos (by simp)
  have hd := deframe_bitsOf_append p rc
  refine ⟨fun hbad => ?_, fun hgood hpost => ?_, fun r hgood hpost => ?_⟩
  · rw [handle_mismatch s h8 hne (by simp [hd, hbad]), hd]
  · rw [handle_valid s h8 hne (by simp [hd, hgood]), hd, hpost]
    rfl
  · rw [handle_valid s h8 hne (by simp [hd, hgood]), hd, hpost]
    rfl

/-- Of the state, handling a frame reads the answers of `Post` alone. -/
theorem handle_of_post (post : List PostAnswer) (body : Bits) : ∃ answers new e, ∀ s : State, s.post = post →
    s.handle body = { s with post := answers, calls := s.calls ++ new, evt := s.evt ++ [e] } := by
  by_cases h8 : body.length % 8 = 0
  · by_cases hnil : body = []
    · subst hnil
      exact ⟨post, [], .emptyBody, fun s hs => by simp [handle_nil, ← hs]⟩
    · cases hvalid : (deframe body).valid
      · exact ⟨post, [], _, fun s hs => by rw [handle_mismatch s h8 hnil hvalid, ← hs, List.append_nil]⟩
      · exact ⟨post.tail, _, _, fun s hs => hs ▸ handle_valid s h8 hnil hvalid⟩
  · exact ⟨post, [], _, fun s hs => by rw [handle_unaligned s h8, ← hs, List.append_nil]⟩

theorem handle_setBitbuf (s : State) (b body : Bits) : (s.setBitbuf b).handle body = (s.handle body).setBitbuf b := by
  obtain ⟨answers, new, e, h⟩ := handle_of_post s.post body
  rw [h s rfl, h (s.setBitbuf b) rfl]
  rfl

/-! ### The drain -/

theorem drainLoop_of_none {s : State} {rest : Bits} (fuel : Nat) (h : scan1 s.bitbuf = (none, rest)) :
    drainLoop (fuel + 1) s = s.setBitbuf rest := by
  rw [drainLoop, h]

/-- With a pass for every bit, more passes make no difference. -/
theorem drainLoop_eq_of_lt {m n : Nat} {s : State} (hm : s.bitbuf.length < m) (hn : s.bitbuf.length < n) :
    drainLoop m s = drainLoop n s := by
  induction m generalizing n s with
  | zero => contradiction
  | succ m ih =>
    obtain ⟨n, rfl⟩ := Nat.exists_eq_succ_of_ne_zero (Nat.ne_zero_of_lt hn)
    rcases h : scan1 s.bitbuf with ⟨_ | body, rest⟩
    · rw [drainLoop_of_none m h, drainLoop_of_none n h]
    · have hshort := scan1_some_shorter h
      rw [drainLoop_of_emit m h, drainLoop_of_emit n h]
      apply ih <;> rw [handle_bitbuf, State.setBitbuf_bitbuf] <;> omega

theorem drain_of_none {s : State} {rest : Bits} (h : scan1 s.bitbuf = (none, rest)) : s.drain = s.setBitbuf rest :=
  drainLoop_of_none _ h

theorem drain_of_emit {s : State} {body rest : Bits} (h : scan1 s.bitbuf = (some body, rest)) :
    s.drain = ((s.setBitbuf rest).handle body).drain := by
  have hshort := scan1_some_shorter h
  rw [State.drain, drainLoop_of_emit _ h]
  apply drainLoop_eq_of_lt <;> rw [handle_bitbuf, State.setBitbuf_bitbuf] <;> omega

theorem exec_feed {s : State} (hf : s.fatal = false) : exec .feed s = .next (s.appendAndDrain s.ports.bits) :=
  runCommand_admitted hf

/-- Settles O40: every pass that emits shortens the buffer, so the passes left suffice for what is left. -/
theorem feedDrainsToTheEnd : Obligations.FeedDrainsToTheEnd :=
  ⟨fun _ => exec_feed, fun _ => ⟨fun _ => drain_of_none, fun _ _ => drain_of_emit⟩⟩

/-- Induction over the passes of a drain (R181: each that emits leaves fewer bits). -/
theorem drain_induction {motive : State → Prop} (stop : ∀ s rest, scan1 s.bitbuf = (none, rest) → motive s)
    (emit : ∀ s body rest, scan1 s.bitbuf = (some body, rest) →
      motive ((s.setBitbuf rest).handle body) → motive s)
    (s : State) : motive s := by
  induction hlen : s.bitbuf.length using Nat.strong_induction_on generalizing s with
  | _ n ih =>
    rcases h : scan1 s.bitbuf with ⟨_ | body, rest⟩
    · exact stop s rest h
    · have hshort := scan1_some_shorter h
      refine emit s body rest h (ih rest.length (by omega) _ ?_)
      rw [handle_bitbuf, State.setBitbuf_bitbuf]

/-- What the next scanner call gives is all a drain reads of the buffer. -/
theorem drain_setBitbuf_congr (s : State) {b c : Bits} (h : scan1 b = scan1 c) :
    (s.setBitbuf b).drain = (s.setBitbuf c).drain := by
  rcases hb : scan1 b with ⟨_ | body, rest⟩ <;> have hc := h ▸ hb
  · rw [drain_of_none (s := s.setBitbuf b) hb, drain_of_none (s := s.setBitbuf c) hc]
    rfl
  · rw [drain_of_emit (s := s.setBitbuf b) hb, drain_of_emit (s := s.setBitbuf c) hc]
    rfl

/-! ### Splitting a FEED -/

theorem scan1_append_of_some {b body rest : Bits} (h : scan1 b = (some body, rest)) (new : Bits) :
    scan1 (b ++ new) = (some body, rest ++ new) := by
  obtain ⟨a, e, ha, he, hle, hfit, rfl, rfl⟩ := markers_of_scan1_some h
  obtain ⟨ha, -⟩ := (find_eq_some_iff_append new).mp ha
  obtain ⟨he, -⟩ := (find_eq_some_iff_append new).mp he
  rw [scan1_of_frame ha he, slice_append_left new _ (by omega), List.drop_append_of_le_length hfit]

/-- A search may begin as late as the first place found. -/
theorem find_eq_find_zero {s pat : Bits} {k : Nat} (h : ∀ i, find s pat 0 = some i → k ≤ i) :
    find s pat k = find s pat 0 := by
  cases h0 : find s pat 0 with
  | none => exact find_eq_none_iff.mpr fun i _ => find_eq_none_iff.mp h0 i (Nat.zero_le i)
  | some i =>
    obtain ⟨⟨-, hfit, hpat⟩, least⟩ := find_eq_some_iff.mp h0
    exact find_eq_some_iff.mpr ⟨⟨h i h0, hfit, hpat⟩, fun j hji _ => least j hji (Nat.zero_le j)⟩

/-- A scanner call makes nothing of bits before any START, as long as 7 bits stand after them. -/
theorem scan1_append_of_noStart {junk b : Bits} (hlen : junk = [] ∨ 7 ≤ b.length)
    (hjunk : ∀ i, find (junk ++ b) START 0 = some i → junk.length ≤ i) : scan1 (junk ++ b) = scan1 b := by
  have hstart := find_append_eq_map junk b START 0
  rw [Nat.add_zero, find_eq_find_zero hjunk] at hstart
  cases ha : find b START 0 with
  | none =>
    rw [ha] at hstart
    rw [scan1_of_noStart hstart, scan1_of_noStart ha]
    rcases hlen with rfl | hlen
    · rfl
    · rw [List.length_append, Nat.add_sub_assoc hlen, List.drop_length_add_append]
  | some a =>
    rw [ha] at hstart
    have hend := find_append_eq_map junk b END (a + 8)
    rw [← Nat.add_assoc] at hend
    cases he : find b END (a + 8) with
    | none =>
      rw [he] at hend
      rw [scan1_of_openFrame hstart hend, scan1_of_openFrame ha he, List.drop_length_add_append]
    | some e =>
      rw [he] at hend
      rw [scan1_of_frame hstart hend, scan1_of_frame ha he, Nat.add_assoc, Nat.add_assoc, ← slice_drop,
        List.drop_left, List.drop_length_add_append]

/-- Bits dropped before any START are of no account, whatever bits come after, as long as 7 bits are left. -/
theorem scan1_drop_append {b : Bits} {k : Nat} (hk : k = 0 ∨ k + 7 ≤ b.length)
    (hstart : ∀ i, find b START 0 = some i → k ≤ i) (new : Bits) : scan1 (b.drop k ++ new) = scan1 (b ++ new) := by
  have hb : b.take k ++ (b.drop k ++ new) = b ++ new := by rw [← List.append_assoc, List.take_append_drop]
  rw [← hb]
  refine (scan1_append_of_noStart ?_ fun i hi => ?_).symm
  · rcases hk with rfl | hk
    · exact .inl rfl
    · exact .inr (by rw [List.length_append, List.length_drop]; omega)
  · rw [hb] at hi
    rw [List.length_take_of_le (by omega)]
    by_contra hlt
    exact hlt (hstart i ((find_eq_some_iff_append new).mpr ⟨hi, by rw [START_length]; omega⟩))

/-- After a scanner call without a body, what it left serves as well as the whole buffer, whatever bits come after. -/
theorem scan1_append_of_none {b rest : Bits} (h : scan1 b = (none, rest)) (new : Bits) :
    scan1 (rest ++ new) = scan1 (b ++ new) := by
  rcases scan1_cases b with ⟨ha, h'⟩ | ⟨a, ha, -, h'⟩ | ⟨_, _, -, -, -, -, h'⟩ <;>
    rw [h', Prod.mk.injEq] at h <;> obtain ⟨hbody, rfl⟩ := h
  · exact scan1_drop_append (by omega) (by simp [ha]) new
  · obtain ⟨-, hfit, -⟩ := find_some ha
    rw [START_length] at hfit
    exact scan1_drop_append (by omega) (by simp [ha]) new
  · contradiction

/-- Draining before more bits come changes nothing of what the drain after them does. -/
theorem appendAndDrain_drain (s : State) (new : Bits) : s.drain.appendAndDrain new = s.appendAndDrain new := by
  induction s using drain_induction with
  | stop s rest h =>
    rw [drain_of_none h]
    exact drain_setBitbuf_congr s (scan1_append_of_none h new)
  | emit s body rest h ih =>
    have emit : scan1 (s.setBitbuf (s.bitbuf ++ new)).bitbuf = (some body, rest ++ new) := scan1_append_of_some h new
    rw [drain_of_emit h, ih, State.appendAndDrain, State.appendAndDrain, drain_of_emit emit, handle_bitbuf,
      ← handle_setBitbuf]
    rfl

/-- R187: two drains do what one does. -/
theorem appendAndDrain_append (s : State) (a b : Bits) :
    (s.appendAndDrain a).appendAndDrain b = s.appendAndDrain (a ++ b) :=
  calc (s.appendAndDrain a).appendAndDrain b
      = (s.setBitbuf (s.bitbuf ++ a)).appendAndDrain b := appendAndDrain_drain _ b
    _ = (s.setBitbuf (s.bitbuf ++ a ++ b)).drain := rfl
    _ = s.appendAndDrain (a ++ b) := by rw [List.append_assoc]; rfl

/-! ### What the scanner does not read -/

/-- `s` with another configuration and other operands at the ports. -/
def State.withInputs (s : State) (c : ModemConfig) (p : Operands) : State := { s with cfg := c, ports := p }

theorem handle_withInputs (s : State) (c : ModemConfig) (p : Operands) (body : Bits) :
    (s.withInputs c p).handle body = (s.handle body).withInputs c p := by
  obtain ⟨answers, new, e, h⟩ := handle_of_post s.post body
  rw [h s rfl, h (s.withInputs c p) rfl]
  rfl

theorem drain_withInputs (s : State) (c : ModemConfig) (p : Operands) :
    (s.withInputs c p).drain = s.drain.withInputs c p := by
  induction s using drain_induction with
  | stop s rest h =>
    rw [drain_of_none h, drain_of_none (s := s.withInputs c p) h]
    rfl
  | emit s body rest h ih =>
    rw [drain_of_emit h, drain_of_emit (s := s.withInputs c p) h, ← ih, ← handle_withInputs]
    rfl

theorem appendAndDrain_withInputs (s : State) (c : ModemConfig) (p : Operands) (b : Bits) :
    (s.withInputs c p).appendAndDrain b = (s.appendAndDrain b).withInputs c p :=
  drain_withInputs (s.setBitbuf (s.bitbuf ++ b)) c p

@[simp] theorem appendAndDrain_cfg (s : State) (b : Bits) : (s.appendAndDrain b).cfg = s.cfg := by
  rw [appendAndDrain_frame]

@[simp] theorem appendAndDrain_ports (s : State) (b : Bits) : (s.appendAndDrain b).ports = s.ports := by
  rw [appendAndDrain_frame]

@[simp] theorem appendAndDrain_fatal (s : State) (b : Bits) : (s.appendAndDrain b).fatal = s.fatal := by
  rw [appendAndDrain_frame]

theorem appendAndDrain_setCfg (s : State) (c : ModemConfig) (b : Bits) :
    ({ s with cfg := c } : State).appendAndDrain b = { s.appendAndDrain b with cfg := c } :=
  (appendAndDrain_withInputs s c s.ports b).trans (congrArg (State.withInputs _ c) (appendAndDrain_ports s b).symm)

theorem appendAndDrain_setPorts (s : State) (p : Operands) (b : Bits) :
    ({ s with ports := p } : State).appendAndDrain b = { s.appendAndDrain b with ports := p } :=
  (appendAndDrain_withInputs s s.cfg p b).trans (congrArg (State.withInputs _ · p) (appendAndDrain_cfg s b).symm)

/-- FEED of the operand it is given at the ports. -/
theorem exec_feed_setPorts {s : State} (hf : s.fatal = false) (p : Operands) :
    exec .feed { s with ports := p } = .next { s.appendAndDrain p.bits with ports := p } := by
  rw [exec_feed (s := { s with ports := p }) hf, appendAndDrain_setPorts]

/-- Settles O43: two drains are one, and a drain neither reads the ports nor writes them. -/
theorem splittingAFeedDoesNotMatter : Obligations.SplittingAFeedDoesNotMatter := by
  intro s t u a b hf ha hb
  rw [exec_feed_setPorts hf] at ha ⊢
  obtain rfl := Host.Outcome.next.inj ha
  rw [exec_feed_setPorts ((appendAndDrain_fatal s a).trans hf), appendAndDrain_setPorts, appendAndDrain_append] at hb
  rw [← Host.Outcome.next.inj hb]

/-- Settles O56: neither a drain nor a scanner call reads CFG, and a refusal only reports. -/
theorem scannerNeverReadsCfg : Obligations.ScannerNeverReadsCfg := by
  rintro i s t c hi h
  rcases exec_cases h with ⟨hrefused, rfl⟩ | ⟨hf, -, rfl⟩
  · have hadm : admitted { s with cfg := c } i = admitted s i := by cases i <;> rfl
    rw [exec_eq_runCommand, hadm]
    exact runCommand_refused hrefused
  · rcases hi with rfl | rfl
    · rw [exec_feed (s := { s with cfg := c }) hf, appendAndDrain_setCfg]
      rfl
    · exact exec_scan (s := { s with cfg := c }) hf

/-! ### What stays in the buffer -/

theorem appendAndDrain_of_none {s : State} {b rest : Bits} (h : scan1 (s.bitbuf ++ b) = (none, rest)) :
    s.appendAndDrain b = s.setBitbuf rest := by
  rw [State.appendAndDrain, drain_of_none (s := s.setBitbuf (s.bitbuf ++ b)) h]
  rfl

/-- With nothing left after the body, one pass is all. -/
theorem appendAndDrain_of_last {s : State} {b body : Bits} (h : scan1 (s.bitbuf ++ b) = (some body, [])) :
    s.appendAndDrain b = (s.setBitbuf []).handle body := by
  rw [State.appendAndDrain, drain_of_emit (s := s.setBitbuf (s.bitbuf ++ b)) h]
  exact drainLoop_of_normalForm _ (by rw [handle_bitbuf]; rfl)

/-- Settles O44: without a START a scanner call keeps 7 bits, and an open frame is a normal form. -/
theorem idleBufferIsBounded : Obligations.IdleBufferIsBounded := by
  intro s hf
  rw [exec_feed hf]
  refine ⟨fun hnone => ?_, fun hstart hend => ?_⟩
  · refine ⟨_, congrArg _ (appendAndDrain_of_none (scan1_of_noStart hnone)), ?_, rfl, rfl⟩
    rw [State.setBitbuf_bitbuf, List.length_drop]
    omega
  · obtain ⟨h8, -⟩ := find_START_of_front hstart
    have hform : formF (s.bitbuf ++ s.ports.bits) = true :=
      formF_iff.mpr ⟨(slice_append_left _ 0 h8).trans hstart, hend⟩
    exact congrArg _ (appendAndDrain_of_none (scan1_of_normalForm (normalForm_iff.mpr (.inr hform))))

/-- R189: with one bit more than a normal form, a scanner call emits exactly where the bit completes the END of the
frame at the front, and then nothing is left. -/
theorem scan1_concat_cases {buf : Bits} (b : Bit) (h : normalForm buf = true) :
    (∃ body, buf ++ [b] = START ++ body ++ END ∧ scan1 (buf ++ [b]) = (some body, [])) ∨
      (¬ ∃ body, buf ++ [b] = START ++ body ++ END) ∧ ∃ rest, scan1 (buf ++ [b]) = (none, rest) := by
  rcases normalForm_iff.mp h with hS | hF
  · obtain ⟨-, hlen⟩ := formS_iff.mp hS
    have hshort : (buf ++ [b]).length ≤ 8 := by
      rw [List.length_append, List.length_singleton]
      omega
    refine .inr ⟨fun ⟨body, heq⟩ => ?_, ?_⟩
    · simp only [heq, List.length_append, START_length, END_length] at hshort
      omega
    · rcases hscan : scan1 (buf ++ [b]) with ⟨_ | body, rest⟩
      · exact ⟨rest, rfl⟩
      · have := scan1_some_shorter hscan
        omega
  · obtain ⟨hfront, hnone⟩ := formF_iff.mp hF
    obtain ⟨h8, hstart⟩ := find_START_of_front hfront
    obtain ⟨hstart, -⟩ := (find_eq_some_iff_append [b]).mp hstart
    cases hend : find (buf ++ [b]) END 8 with
    | some e =>
      have hlast := end_of_find_concat hnone hend
      rw [END_length] at hlast
      have hdrop : (buf ++ [b]).drop (e + 8) = [] := List.drop_eq_nil_of_le (by simp [hlast])
      have heq := eq_append_of_markers hstart hend
      rw [hdrop, List.take_zero, List.nil_append, List.append_nil] at heq
      exact .inl ⟨_, heq, by rw [scan1_of_frame hstart hend, hdrop]⟩
    | none =>
      refine .inr ⟨fun ⟨body, heq⟩ => ?_, _, scan1_of_openFrame hstart hend⟩
      rw [heq] at hend
      refine find_eq_none_iff.mp hend (8 + body.length) (Nat.le_add_right _ _) (by simp; omega) ?_
      exact slice_of_eq_append (before := START ++ body) (after := []) (by simp) (by simp) rfl

/-- Settles O45: the two outcomes of the scanner's call on one more bit. -/
theorem oneBitFeedsEmitAtTheEndMarker : Obligations.OneBitFeedsEmitAtTheEndMarker := by
  intro s b hf hnormal hbit
  rw [exec_feed hf, hbit]
  rcases scan1_concat_cases b hnormal with ⟨body, heq, hscan⟩ | ⟨hno, rest, hscan⟩
  · refine ⟨fun body' heq' => ?_, fun hno => absurd ⟨body, heq⟩ hno⟩
    obtain rfl : body = body' := by simpa using heq.symm.trans heq'
    exact congrArg _ (appendAndDrain_of_last hscan)
  · refine ⟨fun body heq => absurd ⟨body, heq⟩ hno, fun _ => ⟨_, rfl, ?_⟩⟩
    rw [appendAndDrain_of_none hscan, State.setBitbuf_evt]

/-! ### Entering and leaving the receive loop -/

theorem exec_of_admitted {i : Instr} {s : State} (hf : s.fatal = false) (hadm : admitted s i = true) :
    exec i s = .next (effect s i) := by
  rw [exec_eq_runCommand, hadm]
  exact runCommand_admitted hf

/-- Settles O47: the answer of the capture decides between the two outcomes of R190. -/
theorem rxstartEntersTheLoop : Obligations.RxstartEntersTheLoop := by
  refine fun s hf => ⟨fun hrun hopen => ?_, fun hrun hclosed => ?_, fun hrun =>
    commandInTheWrongStateIsRefused .rxstart s (.inr (.inr ⟨.inl rfl, hrun⟩))⟩
  · obtain ⟨-, h⟩ := (rxstartOpen_cases hrun).resolve_right (by simp [hopen])
    rw [exec_of_admitted hf (by simp [hrun]), effect, h]
  · obtain ⟨-, h⟩ := (rxstartOpen_cases hrun).resolve_left (by simp [hclosed])
    rw [exec_of_admitted hf (by simp [hrun]), effect, h]

/-- Settles O48: RXSTOP where RX_RUN is 1, and its refusal where it is 0. -/
theorem rxstopLeavesTheLoop : Obligations.RxstopLeavesTheLoop :=
  fun s hf => ⟨fun hrun => exec_of_admitted hf hrun, fun hrun =>
    commandInTheWrongStateIsRefused .rxstop s (.inr (.inl ⟨.inr rfl, hrun⟩))⟩

/-! ### One chunk -/

/-- The state in which RXCHUNK has read its chunk, warned of an overflow and delivered the spectrum (R192, R195). -/
def State.afterChunk (s : State) : State := { s with
  mic := ⟨s.mic.frames.drop (chunkLen s.params s.cfg), false⟩
  calls := s.calls ++ [.captureRead (chunkLen s.params s.cfg)]
  busy := none
  evt := s.evt ++ (if s.mic.ovf = true then [.captureOverflow] else [])
  spec := some (spectrum s.params s.cfg.fs (mono (s.mic.frames.take (chunkLen s.params s.cfg)))) }

/-- The bit of the next chunk, if it has one (R193). -/
def State.nextBit (s : State) : Option Bit :=
  classify s.cfg (domfreq s.params s.cfg.fs (mono (s.mic.frames.take (chunkLen s.params s.cfg))))

/-- What one chunk makes of the state: its bit, if it has one, is appended and drained (R192, R193). -/
theorem rxRead_of_le {s : State} (h : chunkLen s.params s.cfg ≤ s.mic.frames.length) :
    rxRead s = s.nextBit.elim s.afterChunk fun b => s.afterChunk.appendAndDrain [b] := by
  obtain ⟨-, hread⟩ := (rxRead_cases s).resolve_left fun hlt => hlt.1.not_ge h
  have warn : ∀ (u : State) (ovf : Bool), (if ovf = true then u.report .captureOverflow else u) =
      { u with evt := u.evt ++ if ovf = true then [.captureOverflow] else [] } := by
    intro u ovf
    cases ovf <;> simp [State.report]
  simp only [hread, rxProcess, warn, State.nextBit]
  cases classify s.cfg (domfreq s.params s.cfg.fs (mono (s.mic.frames.take (chunkLen s.params s.cfg)))) <;> rfl

theorem rxRead_of_lt {s : State} (h : s.mic.frames.length < chunkLen s.params s.cfg) :
    rxRead s = { s with busy := some .rxchunk } := by
  obtain ⟨-, hread⟩ := (rxRead_cases s).resolve_right fun hle => hle.1.not_gt h
  exact hread

theorem exec_rxchunk {s : State} (hf : s.fatal = false) (hrun : s.rxRun = true) (habort : s.now.abort = false) :
    exec .rxchunk s = .next (rxRead s) := by
  rw [exec_of_admitted (i := .rxchunk) hf hrun, effect, if_neg (by simp [habort])]

/-- Settles O49: the read has its chunk, and DOMFREQ computes the same frequency for it. -/
theorem rxchunkProcessesOneChunk : Obligations.RxchunkProcessesOneChunk := by
  rintro s _ hf hrun habort hlen rfl
  rw [exec_rxchunk hf hrun habort, rxRead_of_le hlen]
  refine ⟨fun hnone => ?_, fun b hbit => ?_, fun t f hok ht hres => ?_⟩
  · rw [show s.nextBit = none from hnone]
    rfl
  · rw [show s.nextBit = some b from hbit]
    rfl
  · obtain ⟨h2, hchan⟩ := domfreqOperandOk_iff.mp hok
    rw [exec_domfreq (by exact hf) h2 hchan] at ht
    obtain rfl := Host.Outcome.next.inj ht
    exact (Result.frequency.inj (Option.some.inj hres)).symm

/-- Settles O50: a step that goes on with a waiting RXCHUNK is a read, after the arrivals have joined the frames. -/
theorem rxchunkWaitsForItsChunk : Obligations.RxchunkWaitsForItsChunk := by
  refine ⟨fun s hf hrun habort hfew => ?_, fun s hr hb => ?_⟩
  · rw [exec_rxchunk hf hrun habort, rxRead_of_lt hfew]
  · rw [step_of_busy hr hb, State.resume_rxchunk]
    refine ⟨fun hfew => ?_, ?_⟩
    · rw [rxRead_of_lt (s := s.beginStep) hfew, ← hb]
      rfl
    · rintro _ _ hlen rfl rfl
      rw [rxRead_of_le (s := s.beginStep) hlen]
      refine ⟨fun hnone => ?_, fun b hbit => ?_⟩
      · rw [show s.beginStep.nextBit = none from hnone]
        rfl
      · rw [show s.beginStep.nextBit = some b from hbit]
        rfl

end Sys2Proof.Machine

/-! PROOFS. Control (45_control.md): CFGLOAD and the conditions on its record (R210, R211), RESET (R216), and ABORT
(R217, R218). -/

namespace Sys2Proof.Machine

/-! ### CFGLOAD -/

theorem exec_cfgload_of_valid {s : State} (hf : s.fatal = false) (hrun : s.rxRun = false)
    (hvalid : configValid s.ports.cfgin = true) : exec .cfgload s = .next { s with cfg := s.ports.cfgin } := by
  rw [exec_of_admitted hf (by simp [hrun]), effect, firstFailing_eq_none_iff.mpr hvalid]

theorem exec_cfgload_of_failing {s : State} {n : Nat} (hf : s.fatal = false) (hrun : s.rxRun = false)
    (hn : firstFailing s.ports.cfgin = some n) :
    exec .cfgload s = .next { s with evt := s.evt ++ [.configError n], fatal := true } := by
  rw [exec_of_admitted hf (by simp [hrun]), effect, hn]
  exact congrArg _ (fatalError_idle hrun)

theorem exists_firstFailing_of_invalid {c : ModemConfig} (h : configValid c = false) :
    ∃ n, firstFailing c = some n :=
  Option.ne_none_iff_exists'.mp fun hnone => by simp [firstFailing_eq_none_iff.mp hnone] at h

/-- Settles O11: the record's first failing condition, if it has one, decides between the two outcomes of R210. -/
theorem cfgloadWritesAllOrNone : Obligations.CfgloadWritesAllOrNone := by
  refine fun s hf => ⟨exec_cfgload_of_valid hf, fun hrun hinvalid => ?_, fun hrun =>
    commandInTheWrongStateIsRefused .cfgload s (.inr (.inr ⟨.inr (.inr rfl), hrun⟩))⟩
  obtain ⟨which, hwhich⟩ := exists_firstFailing_of_invalid hinvalid
  exact ⟨which, hwhich, exec_cfgload_of_failing hf hrun hwhich⟩

/-- The list the model tests is R211's: entry `i` of it is condition `i + 1`. -/
theorem configConditions_getElem (c : ModemConfig) : ∀ (i : Nat) (hi : i < (configConditions c).length),
    (configConditions c)[i] = true ↔ ConfigCondition c (i + 1)
  | 0, _ | 1, _ | 2, _ | 3, _ | 4, _ | 5, _ | 6, _ | 7, _ => decide_eq_true_iff

theorem configValid_iff {c : ModemConfig} : configValid c = true ↔
    (0 < c.fs ∧ 0 < c.tbit ∧ 0 < c.f0 ∧ 0 < c.f1 ∧ c.f0 ≠ c.f1 ∧ 0 ≤ c.tol ∧ (0 ≤ c.amp ∧ c.amp ≤ 1) ∧
      c.tol < |c.f0 - c.f1| / 2) := by
  simp only [configValid, configConditions, List.all_cons, List.all_nil, Bool.and_eq_true, decide_eq_true_eq, id_eq,
    and_true]

theorem firstFailing_eq_some_iff {c : ModemConfig} {n : Nat} : firstFailing c = some n ↔
    (1 ≤ n ∧ n ≤ 8 ∧ ¬ ConfigCondition c n ∧ ∀ m, 1 ≤ m → m < n → ConfigCondition c m) := by
  have hlen : (configConditions c).length = 8 := rfl
  rw [firstFailing, Option.map_eq_some_iff]
  constructor
  · rintro ⟨i, hi, rfl⟩
    obtain ⟨hlt, hfails, hbefore⟩ := List.findIdx?_eq_some_iff_getElem.mp hi
    refine ⟨by omega, by omega, ?_, fun m h1 hm => ?_⟩
    · rw [← configConditions_getElem c i hlt]
      simpa using hfails
    · obtain ⟨m, rfl⟩ := Nat.exists_eq_add_of_le' h1
      rw [← configConditions_getElem c m (by omega)]
      simpa using hbefore m (by omega)
  · rintro ⟨h1, h8, hfails, hbefore⟩
    obtain ⟨i, rfl⟩ := Nat.exists_eq_add_of_le' h1
    have hlt : i < (configConditions c).length := by omega
    rw [← configConditions_getElem c i hlt] at hfails
    refine ⟨i, List.findIdx?_eq_some_iff_getElem.mpr ⟨hlt, by simpa using hfails, fun j hj => ?_⟩, rfl⟩
    have hholds := hbefore (j + 1) (by omega) (by omega)
    rw [← configConditions_getElem c j (by omega)] at hholds
    simpa using hholds

/-- R237: while FATAL is 1 every command is refused. -/
theorem exec_of_fatal {s : State} (hf : s.fatal = true) (i : Instr) :
    exec i s = .next (s.report (.commandError (encode i))) := by
  rw [exec_eq_runCommand]
  exact runCommand_refused (.inl hf)

/-- Settles O12: the conditions in the order of R211, the fatal ConfigError, and what FATAL refuses. -/
theorem configErrorNamesTheFirstFailingCondition : Obligations.ConfigErrorNamesTheFirstFailingCondition :=
  ⟨fun _ => configValid_iff, fun _ _ => firstFailing_eq_some_iff, fun _ _ hf hrun hn =>
    ⟨_, exec_cfgload_of_failing hf hrun hn, rfl, exec_of_fatal rfl⟩⟩

/-! ### RESET -/

/-- R237: only the RESET input clears FATAL. -/
theorem reset_of_step_clears_fatal {s t : State} (h : step s = .next t) (hf : s.fatal = true)
    (ht : t.fatal = false) : s.now.reset = true := by
  rcases step_cases h with ⟨hr, -⟩ | ⟨-, b, -, rfl⟩ | ⟨-, -, -, rfl⟩ | ⟨c, rest, e, -, -, rfl⟩ |
    ⟨c, rest, i, u, -, -, hu, rfl⟩
  · exact hr
  · simp [hf] at ht
  · simp [hf] at ht
  · simp [hf] at ht
  · rw [exec_of_fatal (s := s.beginStep.takeCommand c rest) hf] at hu
    obtain rfl := Host.Outcome.next.inj hu
    simp [hf] at ht

/-- Settles O2: a step in RESET is `resetCore` and nothing else, and every other step leaves FATAL set. -/
theorem resetInputRestoresTheState : Obligations.ResetInputRestoresTheState := by
  refine ⟨fun s hr => ⟨_, step_of_reset hr, ?_⟩, fun _ _ => reset_of_step_clears_fatal⟩
  have hheld : captureHeld s.beginStep = captureHeld s := rfl
  simp [resetCore_eq, hheld]

/-! ### ABORT -/

/-- Settles O51: RXCHUNK looks at ABORT before its read. -/
theorem abortLeavesTheLoopCleanly : Obligations.AbortLeavesTheLoopCleanly := by
  intro s hf hrun habort
  rw [exec_of_admitted (i := .rxchunk) hf hrun, effect, if_pos habort, abortExit_eq]

theorem calibrateRead_of_le {s : State} {count : Nat} (minFreq : Rat) (h : count ≤ s.mic.frames.length) :
    calibrateRead count minFreq s = calibrateFinish minFreq (s.mic.frames.take count) s.mic.ovf { s with
      mic := ⟨s.mic.frames.drop count, false⟩, calls := s.calls ++ [.captureRead count], busy := none } := by
  obtain ⟨-, hread⟩ := (calibrateRead_cases count minFreq s).resolve_left fun hlt => hlt.1.not_ge h
  exact hread

section
variable (s : State) (b : Bool)
@[simp] theorem State.setAbort_cfg : (s.setAbort b).cfg = s.cfg := rfl
@[simp] theorem State.setAbort_ports : (s.setAbort b).ports = s.ports := rfl
@[simp] theorem State.setAbort_params : (s.setAbort b).params = s.params := rfl
@[simp] theorem State.setAbort_canOpen : (s.setAbort b).now.canOpen = s.now.canOpen := rfl
@[simp] theorem State.call_setAbort (c : Call) : (s.setAbort b).call c = (s.call c).setAbort b := rfl

theorem fatalError_setAbort (e : Event) : (s.setAbort b).fatalError e = (s.fatalError e).setAbort b := by
  cases hrun : s.rxRun
  · rw [fatalError_idle hrun, fatalError_idle (s := s.setAbort b) hrun]
    rfl
  · rw [fatalError_running hrun, fatalError_running (s := s.setAbort b) hrun]
    rfl

theorem handle_setAbort (body : Bits) : (s.setAbort b).handle body = (s.handle body).setAbort b := by
  obtain ⟨answers, new, e, h⟩ := handle_of_post s.post body
  rw [h s rfl, h (s.setAbort b) rfl]
  rfl

theorem drain_setAbort : (s.setAbort b).drain = s.drain.setAbort b := by
  induction s using drain_induction with
  | stop s rest h =>
    rw [drain_of_none h, drain_of_none (s := s.setAbort b) h]
    rfl
  | emit s body rest h ih =>
    rw [drain_of_emit h, drain_of_emit (s := s.setAbort b) h, ← ih, ← handle_setAbort]
    rfl

theorem appendAndDrain_setAbort (new : Bits) :
    (s.setAbort b).appendAndDrain new = (s.appendAndDrain new).setAbort b :=
  drain_setAbort (s.setBitbuf (s.bitbuf ++ new)) b

theorem rxRead_setAbort : rxRead (s.setAbort b) = (rxRead s).setAbort b := by
  rcases lt_or_ge s.mic.frames.length (chunkLen s.params s.cfg) with h | h
  · rw [rxRead_of_lt h, rxRead_of_lt (s := s.setAbort b) h]
    rfl
  · rw [rxRead_of_le h, rxRead_of_le (s := s.setAbort b) h, show (s.setAbort b).nextBit = s.nextBit from rfl]
    cases s.nextBit with
    | none => rfl
    | some bit => exact appendAndDrain_setAbort s.afterChunk b [bit]

theorem calibrateRead_setAbort (count : Nat) (minFreq : Rat) :
    calibrateRead count minFreq (s.setAbort b) = (calibrateRead count minFreq s).setAbort b := by
  rcases lt_or_ge s.mic.frames.length count with h | h
  · rw [calibrateRead_of_lt minFreq h, calibrateRead_of_lt (s := s.setAbort b) minFreq h]
    rfl
  · rw [calibrateRead_of_le minFreq h, calibrateRead_of_le (s := s.setAbort b) minFreq h, calibrateFinish_eq,
      calibrateFinish_eq]
    rfl

theorem calibrateOpen_setAbort (count : Nat) (minFreq : Rat) :
    calibrateOpen count minFreq (s.setAbort b) = (calibrateOpen count minFreq s).setAbort b := by
  simp only [calibrateOpen, State.captureOpen, State.setAbort_canOpen, State.call_setAbort]
  cases s.now.canOpen
  · exact fatalError_setAbort _ b _
  · exact calibrateRead_setAbort _ b count minFreq

theorem rxstartOpen_setAbort : rxstartOpen (s.setAbort b) = (rxstartOpen s).setAbort b := by
  simp only [rxstartOpen, State.captureOpen, State.setAbort_canOpen, State.call_setAbort]
  cases s.now.canOpen
  · exact fatalError_setAbort _ b _
  · rfl

theorem resume_setAbort (w : Busy) : (s.setAbort b).resume w = (s.resume w).setAbort b := by
  cases w with
  | rxchunk => exact rxRead_setAbort s b
  | calibrate count minFreq => exact calibrateRead_setAbort s b count minFreq

theorem effect_codec_setAbort {i : Instr} (hi : isCodec i = true) :
    effect (s.setAbort b) i = (effect s i).setAbort b := by
  cases i with
  | tone | classify | frame | modulate | encode => rfl
  | domfreq | deframe =>
    simp only [effect, apply_ite (State.setAbort · b)]
    rfl
  | cfgload | calibrate | feed | scan | rxstart | rxchunk | rxstop => contradiction

/-- No command but RXCHUNK looks at ABORT (R218). -/
theorem effect_setAbort {i : Instr} (hi : i ≠ .rxchunk) : effect (s.setAbort b) i = (effect s i).setAbort b := by
  cases i using instr_cases with
  | codec i hcodec => exact effect_codec_setAbort s b hcodec
  | cfgload =>
    simp only [effect, State.setAbort_ports]
    split
    · rfl
    · exact fatalError_setAbort s b _
  | calibrate =>
    simp only [effect, State.setAbort_ports, State.setAbort_params, State.setAbort_cfg]
    split
    · rfl
    · exact calibrateOpen_setAbort s b _ _
  | feed => exact appendAndDrain_setAbort s b _
  | scan => rfl
  | rxstart => exact rxstartOpen_setAbort s b
  | rxchunk => contradiction
  | rxstop => rfl

@[simp] theorem admitted_setAbort (i : Instr) : admitted (s.setAbort b) i = admitted s i := by cases i <;> rfl

theorem exec_setAbort {t : State} {i : Instr} (hi : i ≠ .rxchunk ∨ s.rxRun = false) (h : exec i s = .next t) :
    exec i (s.setAbort b) = .next (t.setAbort b) := by
  rw [exec_eq_runCommand, admitted_setAbort]
  rcases exec_cases h with ⟨hrefused, rfl⟩ | ⟨hf, hadm, rfl⟩
  · exact runCommand_refused hrefused
  · have hne : i ≠ .rxchunk := by
      rintro rfl
      have hrun : s.rxRun = true := hadm
      simp [hrun] at hi
    rw [hadm, effect_setAbort s b hne]
    exact runCommand_admitted hf
end

/-- Settles O52: ABORT is read by an admitted RXCHUNK alone, and its read, once begun, does not read it. -/
theorem abortTouchesOnlyRxchunk : Obligations.AbortTouchesOnlyRxchunk :=
  ⟨fun _ s _ b => exec_setAbort s b, resume_setAbort⟩

end Sys2Proof.Machine

/-! PROOFS. Exceptions (60_exceptions.md): no step stops the machine (R230, R234), the table of the events (R231), what a
fatal error does and where none arises (R236), and what FATAL refuses (R237). -/

namespace Sys2Proof.Machine

/-! ### No step stops the machine -/

theorem step_next (s : State) : ∃ t, step s = .next t := by
  cases hr : s.now.reset with
  | true => exact ⟨_, step_of_reset hr⟩
  | false =>
    cases hb : s.busy with
    | some b => exact ⟨_, step_of_busy hr hb⟩
    | none =>
      cases hc : s.cmd with
      | nil => exact ⟨_, step_of_idle hr hb hc⟩
      | cons c rest =>
        have ht : s.Takes c rest := ⟨hr, hb, hc⟩
        cases hd : decode c.word with
        | error e => exact ⟨_, step_of_illegal ht hd⟩
        | ok i =>
          obtain ⟨u, hu⟩ := exec_next i (s.beginStep.takeCommand c rest)
          exact ⟨u.endStep, by rw [step_of_running ht hd, hu, finish_next]⟩

/-- Settles O6: each of the five things a step can be doing has a next state, and an idle step does nothing to it. -/
theorem everyStepHasANextState : Obligations.EveryStepHasANextState :=
  ⟨step_next, fun _ => step_of_idle⟩

/-! ### The table of the events -/

/-- R231: the codes 0x01 and 0x02 are those of the fatal events. -/
theorem Event.isFatal_iff_code (e : Event) : e.isFatal = true ↔ (e.code = 0x01#8 ∨ e.code = 0x02#8) := by
  cases e <;> simp [Event.isFatal, Event.code]

/-- Settles O10: the table of R231 row by row, and which of its codes are fatal. -/
theorem eventCodesAreTheTable : Obligations.EventCodesAreTheTable :=
  ⟨fun _ => rfl, fun _ => rfl, rfl, rfl, rfl, fun _ => rfl, rfl, fun _ _ => rfl, rfl, fun _ => rfl, rfl, rfl,
    fun _ => rfl, fun _ => rfl, rfl, Event.isFatal_iff_code⟩

/-! ### Fatal errors -/

/-- R236: the commands that can fail fatally, CFGLOAD, CALIBRATE and RXSTART, are not admitted while the loop runs. -/
theorem effect_fatal_of_running {s : State} {i : Instr} (hadm : admitted s i = true) (hrun : s.rxRun = true) :
    (effect s i).fatal = s.fatal := by
  cases i using instr_cases with
  | codec i hcodec => rw [effect_codec_frame hcodec]
  | cfgload | calibrate | rxstart => simp [hrun] at hadm
  | feed => exact appendAndDrain_fatal s _
  | scan => rfl
  | rxchunk =>
    rcases effect_rxchunk_cases s with ⟨-, h⟩ | ⟨-, h⟩ <;> rw [h]
    · rfl
    · rw [rxRead_frame]
  | rxstop => rfl

/-- Settles O9: the two forms of a fatal error, and that a running loop admits no command that can raise one. -/
theorem fatalErrorReleasesAndSticks : Obligations.FatalErrorReleasesAndSticks := by
  refine ⟨fun _ _ => fatalError_running, fun _ _ => fatalError_idle, fun i s t hrun hf h => ?_⟩
  rcases exec_cases h with ⟨-, rfl⟩ | ⟨-, hadm, rfl⟩
  · exact hf
  · rw [effect_fatal_of_running hadm hrun, hf]

/-! ### While FATAL is 1 -/

/-- R237: while FATAL is 1 the step that takes a word reports CommandError with it, legal or not; only a legal word
brings its operands to the ports. -/
theorem step_of_fatal {s : State} {c : Command} {rest : List Command} (ht : s.Takes c rest) (hf : s.fatal = true) :
    ∃ p, step s =
      .next (State.report { s.beginStep with cmd := rest, ports := p } (.commandError c.word)).endStep := by
  cases hd : decode c.word with
  | error e => exact ⟨s.ports, step_of_illegal ht hd⟩
  | ok i =>
    have hrefused := exec_of_fatal (s := s.beginStep.takeCommand c rest) hf i
    rw [encode_eq_of_decode hd] at hrefused
    exact ⟨c.operands, by rw [step_of_running ht hd, hrefused, finish_next]; rfl⟩

/-- Settles O7: the refusal of every word, and that only RESET clears FATAL. -/
theorem fatalRefusesEveryWord : Obligations.FatalRefusesEveryWord := by
  refine ⟨fun s c rest ht hf => ?_, fun s t h hf hr => ?_⟩
  · obtain ⟨p, hstep⟩ := step_of_fatal ht hf
    obtain ⟨-, hbusy, -⟩ := ht
    exact ⟨_, hstep, by simp [hf, hbusy]⟩
  · exact eq_true_of_ne_false fun hcleared => by simp [reset_of_step_clears_fatal h hf hcleared] at hr

end Sys2Proof.Machine
